-- ==== Sys2Proof/Word.lean ====
section
/-! DEFINITION. The words of the machine (10_state.md R20 to R29): 8-bit bytes, 16-bit words, register
and key numbers. All values are unsigned (00_scope.md R8). -/

namespace Sys2Proof

/-- An 8-bit value: a general register, a timer, a byte of memory, an immediate `kk`. -/
abbrev Byte := BitVec 8

/-- A 16-bit value: `I`, `pc`, a stack entry, an instruction word. -/
abbrev Word := BitVec 16

/-- A register number, a 4-bit field that is never out of range (10_state.md R20). -/
abbrev RegIdx := Fin 16

/-- A key number, 0x0 to 0xF (10_state.md R33). -/
abbrev KeyIdx := Fin 16

/-- The register numbers in ascending order. -/
def allRegs : List RegIdx := [0, 1, 2, 3, 4, 5, 6, 7, 8, 9, 10, 11, 12, 13, 14, 15]

/-- The key numbers in ascending order. -/
def allKeys : List KeyIdx := [0, 1, 2, 3, 4, 5, 6, 7, 8, 9, 10, 11, 12, 13, 14, 15]

/-- `VF`, that is `V[0xF]` (00_scope.md R10). -/
abbrev vF : RegIdx := 15

/-- `zext_16` of a byte (00_scope.md R11). -/
abbrev zext16 (b : Byte) : Word := b.setWidth 16

end Sys2Proof
end

