-- ==== Sys2Proof/Syntax.lean ====
section
/-! DEFINITION. The instructions: one constructor per row of spec/opcode_table.json, in the table's order
(30_encoding.md R86). -/

namespace Sys2Proof

/-- An instruction. `x`, `y` are register numbers (`k` a key number), `kk` an 8-bit immediate, `nnn` a
12-bit address, `n` the count of sprite rows (30_encoding.md R81). -/
inductive Instr where
  /-- 00E0 -/
  | cls
  /-- 00EE -/
  | ret
  /-- 1nnn -/
  | jp (nnn : BitVec 12)
  /-- 2nnn -/
  | call (nnn : BitVec 12)
  /-- 3xkk -/
  | seImm (x : RegIdx) (kk : Byte)
  /-- 4xkk -/
  | sneImm (x : RegIdx) (kk : Byte)
  /-- 5xy0 -/
  | seReg (x y : RegIdx)
  /-- 6xkk -/
  | ldImm (x : RegIdx) (kk : Byte)
  /-- 7xkk -/
  | addImm (x : RegIdx) (kk : Byte)
  /-- 8xy0 -/
  | ldReg (x y : RegIdx)
  /-- 8xy1 -/
  | orReg (x y : RegIdx)
  /-- 8xy2 -/
  | andReg (x y : RegIdx)
  /-- 8xy3 -/
  | xorReg (x y : RegIdx)
  /-- 8xy4 -/
  | addReg (x y : RegIdx)
  /-- 8xy5 -/
  | subReg (x y : RegIdx)
  /-- 8xy6; `y` is in the word and is not used (30_encoding.md R88). -/
  | shr (x y : RegIdx)
  /-- 8xy7 -/
  | subnReg (x y : RegIdx)
  /-- 8xyE; `y` is in the word and is not used (30_encoding.md R88). -/
  | shl (x y : RegIdx)
  /-- 9xy0 -/
  | sneReg (x y : RegIdx)
  /-- Annn -/
  | ldI (nnn : BitVec 12)
  /-- Bnnn -/
  | jpV0 (nnn : BitVec 12)
  /-- Cxkk -/
  | rnd (x : RegIdx) (kk : Byte)
  /-- Dxyn -/
  | drw (x y : RegIdx) (n : Nat)
  /-- Ex9E; the field is the key number itself (45_keypad_timer.md R190). -/
  | skp (k : KeyIdx)
  /-- ExA1; the field is the key number itself (45_keypad_timer.md R191). -/
  | sknp (k : KeyIdx)
  /-- Fx07 -/
  | ldVxDt (x : RegIdx)
  /-- Fx0A -/
  | ldVxKey (x : RegIdx)
  /-- Fx15 -/
  | ldDtVx (x : RegIdx)
  /-- Fx18 -/
  | ldStVx (x : RegIdx)
  /-- Fx1E -/
  | addI (x : RegIdx)
  /-- Fx29 -/
  | ldFont (x : RegIdx)
  /-- Fx33 -/
  | ldBcd (x : RegIdx)
  /-- Fx55 -/
  | storeRegs (x : RegIdx)
  /-- Fx65 -/
  | loadRegs (x : RegIdx)
deriving DecidableEq, Repr

end Sys2Proof
end

