-- ==== Sys2Proof/Decode.lean ====
section
/-! DEFINITION. Decoding and encoding (30_encoding.md R80 to R89), and the opcode map of R86 as a list. -/

namespace Sys2Proof

/-- Why a list of bytes is no instruction. -/
inductive DecodeError where
  /-- The word matches none of the 34 rows (30_encoding.md R87). -/
  | invalidOpcode (opw : Word)
  /-- Fewer than the two bytes of an instruction (30_encoding.md R80). -/
  | truncated
deriving DecidableEq, Repr

/-! ## Fields (30_encoding.md R81, 00_scope.md R9) -/

/-- `opw[hi:lo]` as an unsigned number. -/
def slice (opw : Word) (hi lo : Nat) : Nat := opw.toNat / 2 ^ lo % 2 ^ (hi + 1 - lo)

/-- `op1 = opw[15:12]` -/
def fieldOp1 (opw : Word) : Nat := slice opw 15 12

/-- `x = opw[11:8]` -/
def fieldX (opw : Word) : RegIdx := Fin.ofNat 16 (slice opw 11 8)

/-- `y = opw[7:4]` -/
def fieldY (opw : Word) : RegIdx := Fin.ofNat 16 (slice opw 7 4)

/-- `n = opw[3:0]` -/
def fieldN (opw : Word) : Nat := slice opw 3 0

/-- `kk = opw[7:0]` -/
def fieldKK (opw : Word) : Byte := BitVec.ofNat 8 (slice opw 7 0)

/-- `nnn = opw[11:0]` -/
def fieldNNN (opw : Word) : BitVec 12 := BitVec.ofNat 12 (slice opw 11 0)

/-! ## Decoding (30_encoding.md R85, R87, R89) -/

/-- Group 0: only 00E0 and 00EE are instructions. -/
def decode0 (opw : Word) : Except DecodeError Instr :=
  match slice opw 11 0 with
  | 0x0E0 => .ok .cls
  | 0x0EE => .ok .ret
  | _ => .error (.invalidOpcode opw)

/-- Group 8: the low nibble selects the operation. -/
def decode8 (opw : Word) : Except DecodeError Instr :=
  match fieldN opw with
  | 0x0 => .ok (.ldReg (fieldX opw) (fieldY opw))
  | 0x1 => .ok (.orReg (fieldX opw) (fieldY opw))
  | 0x2 => .ok (.andReg (fieldX opw) (fieldY opw))
  | 0x3 => .ok (.xorReg (fieldX opw) (fieldY opw))
  | 0x4 => .ok (.addReg (fieldX opw) (fieldY opw))
  | 0x5 => .ok (.subReg (fieldX opw) (fieldY opw))
  | 0x6 => .ok (.shr (fieldX opw) (fieldY opw))
  | 0x7 => .ok (.subnReg (fieldX opw) (fieldY opw))
  | 0xE => .ok (.shl (fieldX opw) (fieldY opw))
  | _ => .error (.invalidOpcode opw)

/-- Group E: the low byte selects the test. -/
def decodeE (opw : Word) : Except DecodeError Instr :=
  match slice opw 7 0 with
  | 0x9E => .ok (.skp (fieldX opw))
  | 0xA1 => .ok (.sknp (fieldX opw))
  | _ => .error (.invalidOpcode opw)

/-- Group F: the low byte selects the operation. -/
def decodeF (opw : Word) : Except DecodeError Instr :=
  match slice opw 7 0 with
  | 0x07 => .ok (.ldVxDt (fieldX opw))
  | 0x0A => .ok (.ldVxKey (fieldX opw))
  | 0x15 => .ok (.ldDtVx (fieldX opw))
  | 0x18 => .ok (.ldStVx (fieldX opw))
  | 0x1E => .ok (.addI (fieldX opw))
  | 0x29 => .ok (.ldFont (fieldX opw))
  | 0x33 => .ok (.ldBcd (fieldX opw))
  | 0x55 => .ok (.storeRegs (fieldX opw))
  | 0x65 => .ok (.loadRegs (fieldX opw))
  | _ => .error (.invalidOpcode opw)

/-- The instruction a word spells. Every literal nibble of a pattern is compared (30_encoding.md R85;
DESIGN CHOICE of the spec, its D16, safe, log 23), and every other word is rejected by name (R87). -/
def decode (opw : Word) : Except DecodeError Instr :=
  match fieldOp1 opw with
  | 0x0 => decode0 opw
  | 0x1 => .ok (.jp (fieldNNN opw))
  | 0x2 => .ok (.call (fieldNNN opw))
  | 0x3 => .ok (.seImm (fieldX opw) (fieldKK opw))
  | 0x4 => .ok (.sneImm (fieldX opw) (fieldKK opw))
  | 0x5 => if fieldN opw = 0 then .ok (.seReg (fieldX opw) (fieldY opw)) else .error (.invalidOpcode opw)
  | 0x6 => .ok (.ldImm (fieldX opw) (fieldKK opw))
  | 0x7 => .ok (.addImm (fieldX opw) (fieldKK opw))
  | 0x8 => decode8 opw
  | 0x9 => if fieldN opw = 0 then .ok (.sneReg (fieldX opw) (fieldY opw)) else .error (.invalidOpcode opw)
  | 0xA => .ok (.ldI (fieldNNN opw))
  | 0xB => .ok (.jpV0 (fieldNNN opw))
  | 0xC => .ok (.rnd (fieldX opw) (fieldKK opw))
  | 0xD => .ok (.drw (fieldX opw) (fieldY opw) (fieldN opw))
  | 0xE => decodeE opw
  | 0xF => decodeF opw
  | _ => .error (.invalidOpcode opw)

/-- The instruction word of two bytes: the byte at the lower address is the high one (20_memory.md R55). -/
def wordOfBytes (hi lo : Byte) : Word := hi ++ lo

/-- The high byte of a word, the one stored at the lower address. -/
def highByte (opw : Word) : Byte := BitVec.ofNat 8 (slice opw 15 8)

/-- The low byte of a word. -/
def lowByte (opw : Word) : Byte := BitVec.ofNat 8 (slice opw 7 0)

/-- The first instruction of a list of bytes, with the bytes after it. -/
def decodeBytes : List Byte → Except DecodeError (Instr × List Byte)
  | hi :: lo :: rest =>
    match decode (wordOfBytes hi lo) with
    | .ok i => .ok (i, rest)
    | .error e => .error e
  | _ => .error .truncated

/-! ## Encoding (30_encoding.md R82, R86) -/

/-- Format NNN. -/
def encodeNNN (op1 : Nat) (nnn : BitVec 12) : Word := BitVec.ofNat 16 (op1 * 0x1000 + nnn.toNat)

/-- Format XKK. -/
def encodeXKK (op1 : Nat) (x : RegIdx) (kk : Byte) : Word :=
  BitVec.ofNat 16 (op1 * 0x1000 + x.val * 0x100 + kk.toNat)

/-- Formats XY and XYN: `op4` is the low nibble. -/
def encodeXYN (op1 : Nat) (x y : RegIdx) (op4 : Nat) : Word :=
  BitVec.ofNat 16 (op1 * 0x1000 + x.val * 0x100 + y.val * 0x10 + op4)

/-- Format X: `low` is the literal low byte. -/
def encodeX (op1 : Nat) (x : RegIdx) (low : Nat) : Word :=
  BitVec.ofNat 16 (op1 * 0x1000 + x.val * 0x100 + low)

/-- The word of an instruction (30_encoding.md R86). -/
def encode : Instr → Word
  | .cls => 0x00E0
  | .ret => 0x00EE
  | .jp nnn => encodeNNN 0x1 nnn
  | .call nnn => encodeNNN 0x2 nnn
  | .seImm x kk => encodeXKK 0x3 x kk
  | .sneImm x kk => encodeXKK 0x4 x kk
  | .seReg x y => encodeXYN 0x5 x y 0x0
  | .ldImm x kk => encodeXKK 0x6 x kk
  | .addImm x kk => encodeXKK 0x7 x kk
  | .ldReg x y => encodeXYN 0x8 x y 0x0
  | .orReg x y => encodeXYN 0x8 x y 0x1
  | .andReg x y => encodeXYN 0x8 x y 0x2
  | .xorReg x y => encodeXYN 0x8 x y 0x3
  | .addReg x y => encodeXYN 0x8 x y 0x4
  | .subReg x y => encodeXYN 0x8 x y 0x5
  | .shr x y => encodeXYN 0x8 x y 0x6
  | .subnReg x y => encodeXYN 0x8 x y 0x7
  | .shl x y => encodeXYN 0x8 x y 0xE
  | .sneReg x y => encodeXYN 0x9 x y 0x0
  | .ldI nnn => encodeNNN 0xA nnn
  | .jpV0 nnn => encodeNNN 0xB nnn
  | .rnd x kk => encodeXKK 0xC x kk
  | .drw x y n => encodeXYN 0xD x y n
  | .skp k => encodeX 0xE k 0x9E
  | .sknp k => encodeX 0xE k 0xA1
  | .ldVxDt x => encodeX 0xF x 0x07
  | .ldVxKey x => encodeX 0xF x 0x0A
  | .ldDtVx x => encodeX 0xF x 0x15
  | .ldStVx x => encodeX 0xF x 0x18
  | .addI x => encodeX 0xF x 0x1E
  | .ldFont x => encodeX 0xF x 0x29
  | .ldBcd x => encodeX 0xF x 0x33
  | .storeRegs x => encodeX 0xF x 0x55
  | .loadRegs x => encodeX 0xF x 0x65

/-! ## The opcode map as a table (30_encoding.md R86) -/

/-- One row: the table's mnemonic, the mask of its literal bits, and their value. -/
structure OpcodeRow where
  mnemonic : String
  mask : Word
  pattern : Word
deriving DecidableEq, Repr

/-- A word matches a row when every literal bit is as the row has it (30_encoding.md R85). -/
def OpcodeRow.matches (r : OpcodeRow) (opw : Word) : Bool := opw &&& r.mask == r.pattern

/-- The 34 rows of 30_encoding.md R86, mask and match as printed there. -/
def opcodeTable : List OpcodeRow :=
  [⟨"CLS", 0xFFFF, 0x00E0⟩, ⟨"RET", 0xFFFF, 0x00EE⟩,
   ⟨"JP_nnn", 0xF000, 0x1000⟩, ⟨"CALL_nnn", 0xF000, 0x2000⟩,
   ⟨"SE_Vx__kk", 0xF000, 0x3000⟩, ⟨"SNE_Vx__kk", 0xF000, 0x4000⟩,
   ⟨"SE_Vx__Vy", 0xF00F, 0x5000⟩, ⟨"LD_Vx__kk", 0xF000, 0x6000⟩,
   ⟨"ADD_Vx__kk", 0xF000, 0x7000⟩, ⟨"LD_Vx__Vy", 0xF00F, 0x8000⟩,
   ⟨"OR_Vx__Vy", 0xF00F, 0x8001⟩, ⟨"AND_Vx__Vy", 0xF00F, 0x8002⟩] ++
  [⟨"XOR_Vx__Vy", 0xF00F, 0x8003⟩, ⟨"ADD_Vx__Vy", 0xF00F, 0x8004⟩,
   ⟨"SUB_Vx__Vy", 0xF00F, 0x8005⟩, ⟨"SHR_Vx", 0xF00F, 0x8006⟩,
   ⟨"SUBN_Vx__Vy", 0xF00F, 0x8007⟩, ⟨"SHL_Vx", 0xF00F, 0x800E⟩,
   ⟨"SNE_Vx__Vy", 0xF00F, 0x9000⟩, ⟨"LD_I__nnn", 0xF000, 0xA000⟩,
   ⟨"JP_V0__nnn", 0xF000, 0xB000⟩, ⟨"RND_Vx__kk", 0xF000, 0xC000⟩,
   ⟨"DRW_Vx__Vy__n", 0xF000, 0xD000⟩, ⟨"SKP_x", 0xF0FF, 0xE09E⟩] ++
  [⟨"SKNP_x", 0xF0FF, 0xE0A1⟩, ⟨"LD_Vx__DT", 0xF0FF, 0xF007⟩,
   ⟨"LD_Vx__K", 0xF0FF, 0xF00A⟩, ⟨"LD_DT__Vx", 0xF0FF, 0xF015⟩,
   ⟨"LD_ST__Vx", 0xF0FF, 0xF018⟩, ⟨"ADD_I__Vx", 0xF0FF, 0xF01E⟩,
   ⟨"LD_F__Vx", 0xF0FF, 0xF029⟩, ⟨"LD_B__Vx", 0xF0FF, 0xF033⟩,
   ⟨"LD__I___Vx", 0xF0FF, 0xF055⟩, ⟨"LD_Vx___I", 0xF0FF, 0xF065⟩]

/-- The mnemonic an instruction has in spec/opcode_table.json. -/
def Instr.mnemonic : Instr → String
  | .cls => "CLS"
  | .ret => "RET"
  | .jp _ => "JP_nnn"
  | .call _ => "CALL_nnn"
  | .seImm _ _ => "SE_Vx__kk"
  | .sneImm _ _ => "SNE_Vx__kk"
  | .seReg _ _ => "SE_Vx__Vy"
  | .ldImm _ _ => "LD_Vx__kk"
  | .addImm _ _ => "ADD_Vx__kk"
  | .ldReg _ _ => "LD_Vx__Vy"
  | .orReg _ _ => "OR_Vx__Vy"
  | .andReg _ _ => "AND_Vx__Vy"
  | .xorReg _ _ => "XOR_Vx__Vy"
  | .addReg _ _ => "ADD_Vx__Vy"
  | .subReg _ _ => "SUB_Vx__Vy"
  | .shr _ _ => "SHR_Vx"
  | .subnReg _ _ => "SUBN_Vx__Vy"
  | .shl _ _ => "SHL_Vx"
  | .sneReg _ _ => "SNE_Vx__Vy"
  | .ldI _ => "LD_I__nnn"
  | .jpV0 _ => "JP_V0__nnn"
  | .rnd _ _ => "RND_Vx__kk"
  | .drw _ _ _ => "DRW_Vx__Vy__n"
  | .skp _ => "SKP_x"
  | .sknp _ => "SKNP_x"
  | .ldVxDt _ => "LD_Vx__DT"
  | .ldVxKey _ => "LD_Vx__K"
  | .ldDtVx _ => "LD_DT__Vx"
  | .ldStVx _ => "LD_ST__Vx"
  | .addI _ => "ADD_I__Vx"
  | .ldFont _ => "LD_F__Vx"
  | .ldBcd _ => "LD_B__Vx"
  | .storeRegs _ => "LD__I___Vx"
  | .loadRegs _ => "LD_Vx___I"

/-! ## The host's view of a table word -/

/-- The two bytes, in the order memory holds them, of an instruction whose bits are `w`, every bit above
`nbits` being 0. -/
def tableBytes (nbits w : Nat) : List Byte :=
  let opw : Word := BitVec.ofNat 16 (w % 2 ^ nbits)
  [highByte opw, lowByte opw]

/-- The instruction the decoder reads from a word of spec/opcode_table.json. -/
def decodeTableWord (nbits w : Nat) : Option Instr :=
  match decodeBytes (tableBytes nbits w) with
  | .ok (i, _) => some i
  | .error _ => none

end Sys2Proof
end

