-- ==== Sys2Proof/Config.lean ====
section
/-! DEFINITION. The parameters of 00_scope.md R7 that a definition of the model reads, and the values the
spec leaves open. A constant declared `opaque` has no body, so no proof can use a particular value of it. -/

namespace Sys2Proof

/-- `MEM_SIZE`: addresses 0x000 to 0xFFF (20_memory.md R51). -/
abbrev Config.memSize : Nat := 4096

/-- `RESET_PC` (10_state.md R24). -/
abbrev Config.resetPc : Word := 0x200

/-- `PROGRAM_BASE`: where ROM bytes start (60_exceptions.md R215). -/
abbrev Config.programBase : Nat := 0x200

/-- `MAX_ROM_BYTES` (60_exceptions.md R215, the spec's D20). -/
abbrev Config.maxRomBytes : Nat := 3584

/-- `STACK_DEPTH` (10_state.md R27, R28). -/
abbrev Config.stackDepth : Nat := 16

/-- `GLYPH_BYTES` (20_memory.md R59). -/
abbrev Config.glyphBytes : Nat := 5

/-- The size of the font region 0x000 to 0x04F: 16 glyphs of `GLYPH_BYTES` bytes at `FONT_BASE` 0x000. -/
abbrev Config.fontBytes : Nat := 80

/-- `FONT[0..79]`, the open parameter of 00_scope.md R7 (the spec's D14, N2): the bytes are not in the
source. UNVERIFIED value, left free; safe (log 1). -/
opaque Config.font : Nat → Byte

/-- The value of the input `rnd` at an execution of Cxkk for which the host's input is not named: any
byte, unrelated from one draw to the next (60_exceptions.md R221). A free value; safe (log 2). -/
opaque Config.freeRnd : Nat → Byte

/-- The two readings of the shift source (42_alu.md R144). -/
inductive ShiftSrc where
  | vx
  | vy
deriving DecidableEq, Repr

/-- `SHIFT_SRC`, fixed to `VX` for this hardware (42_alu.md R144; DESIGN CHOICE of the spec, its D23,
unsafe, log 19). -/
def Config.shiftSrc : ShiftSrc := .vx

end Sys2Proof
end

