-- ==== Sys2Proof/Machine/State.lean ====
section
/-! DEFINITION. The state of the machine (10_state.md R20 to R36), the reasons a step can stop, and reset. -/

namespace Sys2Proof.Machine

/-- The four faults of 60_exceptions.md R200, each fatal. A fault is what the spec says the step reports, so
stopping with it leaves no behaviour of the machine out (safe; log 8). -/
inductive Fault where
  /-- Raised by `step` when the fetched word matches no row of the opcode map (60_exceptions.md R201). Safe. -/
  | invalidOpcode (opw : Word)
  /-- Raised by 2nnn when `sp = 16` on entry (60_exceptions.md R202). Safe but for the threshold, which is the
  spec's decision D2 (log 11). -/
  | stackOverflow
  /-- Raised by 00EE when `sp = 0` on entry (60_exceptions.md R203). Safe. -/
  | stackUnderflow
  /-- Raised by the fetch, Dxyn, Fx33, Fx55, Fx65 at the first address above 4095 (60_exceptions.md R204). The
  address is a natural number, never wrapped (00_scope.md R12). Safe. -/
  | memoryOutOfBounds (addr : Nat)
deriving DecidableEq, Repr

/-- Reasons the model has no transition. No instruction of the table is refused. -/
inductive Refusal where
  /-- Raised by `exec` alone, for an instruction without a meaning; no arm answers it. Safe. -/
  | notModelled (mnemonic : String)
  /-- Raised by the host operation `LoadRom` for more bytes than the program space holds: not a move the host
  has (60_exceptions.md R215, the spec's D20). Safe. -/
  | romTooLong (length : Nat)
  /-- Raised by the host operation `LoadRom` once a `Step` has been made since the last `Reset`: not a move the
  host has (60_exceptions.md R216, the spec's D20). Safe. -/
  | romTooLate
deriving DecidableEq, Repr

/-- Memory as the listed bytes of the flat store (20_memory.md R51): pairs of an address and a byte, addresses
rising, none equal to what an unlisted address reads as (`Memory.wf`). -/
abbrev Memory := List Host.Cell

/-- The framebuffer (44_display.md R173): 32 rows of 64 one-bit pixels, bit `px` of row `py` being the pixel
of column `px`. -/
abbrev Framebuffer := Vector (BitVec 64) 32

/-- The whole state (10_state.md R34: the machine has no other). -/
structure State where
  /-- `V[0]` .. `V[15]` (R20) -/
  v : Vector Byte 16
  /-- `I` (R23) -/
  i : Word
  /-- `pc` (R24) -/
  pc : Word
  /-- `stack[0]` .. `stack[15]` (R27) -/
  stack : Vector Word 16
  /-- `sp`, 0 to 16 (R28) -/
  sp : Fin 17
  /-- `dt` (R29) -/
  dt : Byte
  /-- `st` (R29) -/
  st : Byte
  /-- `mem` (R31) -/
  mem : Memory
  /-- `fb` (R32) -/
  fb : Framebuffer
  /-- `keys[0]` .. `keys[15]`, true meaning down (R33) -/
  keys : Vector Bool 16
  /-- `FAULT` (R30): `none` is `kind = NONE` -/
  fault : Option Fault
  /-- The model's own: values of `rnd` the host has named for the coming draws (60_exceptions.md R221, log 2) -/
  rndIn : List Byte
  /-- The model's own: how many unnamed values of `rnd` have been drawn (log 2) -/
  draws : Nat
deriving DecidableEq, Repr

/-- The machine right after `Reset()` (10_state.md R36, 70_reset_and_hazards.md R240). Memory lists nothing:
an unlisted address reads as its reset contents (log 1, log 3). `fb`, `keys` and `fault` are the spec's own
decisions (DESIGN CHOICE, unsafe; log 4, log 5, log 6); `rndIn` and `draws` are the model's (DESIGN CHOICE,
log 2). -/
def State.reset : State where
  v := Vector.replicate 16 0
  i := 0
  pc := Config.resetPc
  stack := Vector.replicate 16 0
  sp := 0
  dt := 0
  st := 0
  mem := []
  fb := Vector.replicate 32 0
  keys := Vector.replicate 16 false
  fault := none
  rndIn := []
  draws := 0

end Sys2Proof.Machine
end

