-- ==== Sys2Proof/Machine/Memory.lean ====
section
/-! DEFINITION. The flat store of 20_memory.md as a canonical list of cells: reading, writing, and the form
every operation keeps. -/

namespace Sys2Proof.Machine

/-- What an unlisted address reads as: the reset contents (10_state.md R31, R36). `FONT[a]` in the font
region, an open parameter (log 1); 0x00 elsewhere (DESIGN CHOICE of the spec, its D14, unsafe, log 3). -/
def Memory.blank (a : Nat) : Byte := if a < Config.fontBytes then Config.font a else 0

/-- The byte at an address: the listed one, else the blank one (20_memory.md R52; it changes no state). -/
def Memory.read : Memory → Nat → Byte
  | [], a => Memory.blank a
  | (b, w) :: rest, a => if b = a then w else Memory.read rest a

/-- The memory without a listed byte at `a`. -/
def Memory.erase (m : Memory) (a : Nat) : Memory := m.filter fun c => c.1 != a

/-- A cell put before the first one of a higher address. -/
def Memory.insert : Memory → Nat → Byte → Memory
  | [], a, w => [(a, w)]
  | (b, u) :: rest, a, w => if a < b then (a, w) :: (b, u) :: rest else (b, u) :: Memory.insert rest a w

/-- One byte stored (20_memory.md R53). A byte equal to the blank one is not listed, so that equal memories
are equal lists. -/
def Memory.write (m : Memory) (a : Nat) (w : Byte) : Memory :=
  if w = Memory.blank a then m.erase a else (m.erase a).insert a w

/-- Bytes stored one after the other from an address upward (60_exceptions.md R215). -/
def Memory.writeBytes : Memory → Nat → List Byte → Memory
  | m, _, [] => m
  | m, a, b :: bs => (m.write a b).writeBytes (a + 1) bs

/-- One byte stored where the address exists, for placing an instruction word. -/
def Memory.poke (m : Memory) (a : Nat) (w : Byte) : Memory :=
  if a < Config.memSize then m.write a w else m

/-- The canonical form: addresses rising, each in the address space, no cell equal to the blank byte. -/
abbrev Memory.wf (m : Memory) : Prop :=
  m.Pairwise (fun c d => c.1 < d.1) ∧ ∀ c ∈ m, c.1 < Config.memSize ∧ c.2 ≠ Memory.blank c.1

end Sys2Proof.Machine
end

