-- ==== Sys2Proof/Machine/Ops.lean ====
section
/-! DEFINITION. The named operations over registers, stack, memory, keypad and the random input that the
meanings share; the instruction fetch; raising a fault and latching it. -/

namespace Sys2Proof.Machine

/-- The outcome of a step of this machine. -/
abbrev Result := Host.Outcome State Fault Refusal

/-! ## Registers (10_state.md R20 to R29) -/

/-- `V[x]` -/
def State.getV (s : State) (x : RegIdx) : Byte := s.v[x.val]'x.isLt

/-- `V[x] <- b` -/
def State.setV (s : State) (x : RegIdx) (b : Byte) : State := { s with v := s.v.set x.val b x.isLt }

/-- `I <- w` -/
def State.setI (s : State) (w : Word) : State := { s with i := w }

/-- `pc <- w`; no target is checked, aligned or masked (40_flow.md R114; the spec's D7, log 22). -/
def State.setPc (s : State) (w : Word) : State := { s with pc := w }

/-- `dt <- b` -/
def State.setDt (s : State) (b : Byte) : State := { s with dt := b }

/-- `st <- b` -/
def State.setSt (s : State) (b : Byte) : State := { s with st := b }

/-- The framebuffer replaced. -/
def State.setFb (s : State) (f : Framebuffer) : State := { s with fb := f }

/-- `stack[j]` -/
def State.getStack (s : State) (j : Fin 16) : Word := s.stack[j.val]'j.isLt

/-- `pc <- (pc + 2) mod 65536`: the advance before the body (30_encoding.md R84) and a taken skip
(41_skip.md R124). The wrap is the spec's D8 (log 16). -/
def State.advance (s : State) : State := s.setPc (s.pc + 2)

/-- `pc <- (pc - 2) mod 65536` (45_keypad_timer.md R193). -/
def State.rewind (s : State) : State := s.setPc (s.pc - 2)

/-- A skip: a further 2 if the condition holds (41_skip.md R124). -/
def State.skipIf (s : State) (c : Bool) : State := if c then s.advance else s

/-! ## Call stack (10_state.md R27, R28) -/

/-- Push: the depth is tested before anything is written (40_flow.md R112; DESIGN CHOICE of the spec, its D2,
unsafe, log 11). -/
def State.push (s : State) (w : Word) : Except Fault State :=
  if h : s.sp.val < Config.stackDepth then
    .ok { s with stack := s.stack.set s.sp.val w h, sp := ⟨s.sp.val + 1, Nat.succ_lt_succ h⟩ }
  else .error .stackOverflow

/-- Pop: `sp` goes down, then the entry at the new `sp` is read and keeps its value (40_flow.md R110). -/
def State.pop (s : State) : Except Fault (Word × State) :=
  if h : 0 < s.sp.val then
    let j : Fin 16 := ⟨s.sp.val - 1, by have := s.sp.isLt; omega⟩
    .ok (s.getStack j, { s with sp := j.castSucc })
  else .error .stackUnderflow

/-! ## Memory (20_memory.md R52 to R54, R67) -/

/-- `MemRead(addr, 1)` -/
def State.memRead (s : State) (a : Nat) : Except Fault Byte :=
  if a < Config.memSize then .ok (s.mem.read a) else .error (.memoryOutOfBounds a)

/-- `MemWrite(addr, 1, v)`; no address is protected (20_memory.md R60; the spec's D13, log 17). -/
def State.memWrite (s : State) (a : Nat) (b : Byte) : Except Fault State :=
  if a < Config.memSize then .ok { s with mem := s.mem.write a b } else .error (.memoryOutOfBounds a)

/-- `n` bytes read in ascending order from `a`; the first address out of range is reported (20_memory.md R67;
the spec's D6, log 21). -/
def State.readBytes (s : State) (a : Nat) : Nat → Except Fault (List Byte)
  | 0 => .ok []
  | n + 1 =>
    match s.memRead a with
    | .error f => .error f
    | .ok b =>
      match s.readBytes (a + 1) n with
      | .error f => .error f
      | .ok bs => .ok (b :: bs)

/-- Bytes written in ascending order from `a` (20_memory.md R67). -/
def State.storeBytes (s : State) (a : Nat) : List Byte → Except Fault State
  | [] => .ok s
  | b :: bs =>
    match s.memWrite a b with
    | .error f => .error f
    | .ok t => t.storeBytes (a + 1) bs

/-- `Fetch()`: two reads, combined big-endian (20_memory.md R55). -/
def State.fetch (s : State) : Except Fault Word :=
  match s.memRead s.pc.toNat with
  | .error f => .error f
  | .ok hi =>
    match s.memRead (s.pc.toNat + 1) with
    | .error f => .error f
    | .ok lo => .ok (wordOfBytes hi lo)

/-! ## Keypad (10_state.md R33) -/

/-- `keys[k]` -/
def State.isDown (s : State) (k : KeyIdx) : Bool := s.keys[k.val]'k.isLt

/-- `LowestKeyDown()` (45_keypad_timer.md R192; DESIGN CHOICE of the spec, its D9, unsafe, log 12). -/
def State.lowestKeyDown (s : State) : Option KeyIdx := allKeys.find? s.isDown

/-! ## The random input (60_exceptions.md R221; log 2) -/

/-- The value of `rnd` the next Cxkk reads: the one the host has named, else a free value. -/
def State.nextRnd (s : State) : Byte :=
  match s.rndIn with
  | b :: _ => b
  | [] => Config.freeRnd s.draws

/-- The state once that value has been used: a fresh one is drawn for each Cxkk (42_alu.md R141). -/
def State.useRnd (s : State) : State :=
  match s.rndIn with
  | _ :: rest => { s with rndIn := rest }
  | [] => { s with draws := s.draws + 1 }

/-! ## Faults (60_exceptions.md R200 to R207) -/

/-- `raise K(info)`: the step ends and reports the fault; the model gives no successor state, because every
element but FAULT is then unspecified (60_exceptions.md R206; log 8). -/
def raise (f : Fault) : Result := .fault f

/-- Fault entry (60_exceptions.md R205): FAULT takes the fault, and every other element is unspecified
(R206), so it is what `rest` holds, about which nothing is known (log 8). The host's random input is not
the core's and is kept. -/
def State.latchFault (s : State) (f : Fault) (rest : State) : State :=
  { rest with fault := some f, rndIn := s.rndIn, draws := s.draws }

/-- `FAULT.kind` as a code (10_state.md R30; the spec's D5). -/
def State.faultKind (s : State) : BitVec 3 :=
  match s.fault with
  | none => 0
  | some (.invalidOpcode _) => 1
  | some .stackOverflow => 2
  | some .stackUnderflow => 3
  | some (.memoryOutOfBounds _) => 4

/-- `FAULT.info` (10_state.md R30): the instruction word, the offending address, or 0. -/
def State.faultInfo (s : State) : Word :=
  match s.fault with
  | some (.invalidOpcode opw) => opw
  | some (.memoryOutOfBounds a) => BitVec.ofNat 16 a
  | some .stackOverflow => 0
  | some .stackUnderflow => 0
  | none => 0

/-- A body that may raise: its state, or its fault. -/
def settle : Except Fault State → Result
  | .ok s => .next s
  | .error f => raise f

end Sys2Proof.Machine
end

