-- ==== Sys2Proof/Machine/Operands.lean ====
section
/-! DEFINITION. The computed operands (30_encoding.md R83): the one data addressing mode, jump targets, the
glyph address, the register block, decimal digits. -/

namespace Sys2Proof.Machine

/-- The effective address `I + k`, a natural number, neither wrapped nor masked (43_index_memory.md R156). -/
def indexAddr (s : State) (k : Nat) : Nat := s.i.toNat + k

/-- `zext_16(nnn)` (30_encoding.md R83). -/
def absTarget (nnn : BitVec 12) : Word := nnn.setWidth 16

/-- `zext_16(nnn) + zext_16(V[0])` (40_flow.md R113). -/
def offsetTarget (s : State) (nnn : BitVec 12) : Word := absTarget nnn + zext16 (s.getV 0)

/-- `(I + zext_16(V[x])) mod 65536` (43_index_memory.md R151; the wrap is the spec's D8, log 16). -/
def indexSum (s : State) (x : RegIdx) : Word := s.i + zext16 (s.getV x)

/-- `5 * zext_16(V[x])`, not masked (43_index_memory.md R152; the spec's D27, log 18). -/
def glyphAddr (b : Byte) : Word := BitVec.ofNat 16 (Config.glyphBytes * b.toNat)

/-- The registers `V[0]` .. `V[x]`, ascending (43_index_memory.md R154, R155). -/
def regBlock (x : RegIdx) : List RegIdx := allRegs.filter fun r => decide (r ≤ x)

/-- Hundreds, tens and units of a byte, each a whole byte (43_index_memory.md R153). -/
def bcdDigits (b : Byte) : List Byte :=
  [BitVec.ofNat 8 (b.toNat / 100), BitVec.ofNat 8 (b.toNat / 10 % 10), BitVec.ofNat 8 (b.toNat % 10)]

/-- The loop of Fx55: `MemWrite(I + r, 1, V[r])` for each register of the block in turn. -/
def storeBlock : List RegIdx → State → Except Fault State
  | [], s => .ok s
  | r :: rs, s =>
    match s.memWrite (indexAddr s r.val) (s.getV r) with
    | .error f => .error f
    | .ok t => storeBlock rs t

/-- The loop of Fx65: `V[r] <- MemRead(I + r, 1)` for each register of the block in turn. -/
def loadBlock : List RegIdx → State → Except Fault State
  | [], s => .ok s
  | r :: rs, s =>
    match s.memRead (indexAddr s r.val) with
    | .error f => .error f
    | .ok b => loadBlock rs (s.setV r b)

end Sys2Proof.Machine
end

