-- ==== Sys2Proof/Machine/Flags.lean ====
section
/-! DEFINITION. The flag values of 10_state.md R22 and 42_alu.md R142, as the byte written to VF. -/

namespace Sys2Proof.Machine

/-- 1 for true, 0 for false. -/
def flagByte (c : Bool) : Byte := if c then 1 else 0

/-- 8xy4: 1 if the true sum is greater than 255 (42_alu.md R136). -/
def carryFlag (a b : Byte) : Byte := flagByte (decide (a.toNat + b.toNat > 255))

/-- 8xy5: 1 if `a > b`, strictly (42_alu.md R137). -/
def greaterFlag (a b : Byte) : Byte := flagByte (decide (a.toNat > b.toNat))

/-- 8xy7: 1 if `a < b`, strictly (42_alu.md R139). -/
def lessFlag (a b : Byte) : Byte := flagByte (decide (a.toNat < b.toNat))

/-- 8xy6: the bit shifted out on the right (42_alu.md R138). -/
def lowBitFlag (a : Byte) : Byte := a &&& 1

/-- 8xyE: the bit shifted out on the left (42_alu.md R140). -/
def highBitFlag (a : Byte) : Byte := flagByte (a &&& 0x80 != 0)

end Sys2Proof.Machine
end

