-- ==== Sys2Proof/Machine/Alu.lean ====
section
/-! DEFINITION. Register load, arithmetic, logic, shifts and random: 6xkk, 7xkk, 8xy0 to 8xyE, Cxkk
(42_alu.md). The flag is written first and the result second, and a later statement reads what an earlier one
wrote (00_scope.md R14, 42_alu.md R143; DESIGN CHOICE of the spec, its D1, unsafe, log 10). An effect a rule
does not name does not happen (the spec's D12, log 15). -/

namespace Sys2Proof.Machine

/-- 6xkk (42_alu.md R130). -/
def execLdImm (x : RegIdx) (kk : Byte) (s : State) : Result := .next (s.setV x kk)

/-- 7xkk (42_alu.md R131): modulo 256, VF unaffected. -/
def execAddImm (x : RegIdx) (kk : Byte) (s : State) : Result := .next (s.setV x (s.getV x + kk))

/-- 8xy0 (42_alu.md R132). -/
def execLdReg (x y : RegIdx) (s : State) : Result := .next (s.setV x (s.getV y))

/-- 8xy1 (42_alu.md R133). -/
def execOr (x y : RegIdx) (s : State) : Result := .next (s.setV x (s.getV x ||| s.getV y))

/-- 8xy2 (42_alu.md R134). -/
def execAnd (x y : RegIdx) (s : State) : Result := .next (s.setV x (s.getV x &&& s.getV y))

/-- 8xy3 (42_alu.md R135). -/
def execXor (x y : RegIdx) (s : State) : Result := .next (s.setV x (s.getV x ^^^ s.getV y))

/-- 8xy4 (42_alu.md R136): the sum is computed from the old values, before VF is written. -/
def execAddReg (x y : RegIdx) (s : State) : Result :=
  let sum := s.getV x + s.getV y
  let s₁ := s.setV vF (carryFlag (s.getV x) (s.getV y))
  .next (s₁.setV x sum)

/-- 8xy5 (42_alu.md R137): the subtraction reads the registers again, after the flag write. -/
def execSub (x y : RegIdx) (s : State) : Result :=
  let s₁ := s.setV vF (greaterFlag (s.getV x) (s.getV y))
  .next (s₁.setV x (s₁.getV x - s₁.getV y))

/-- 8xy7 (42_alu.md R139): the subtraction reads the registers again, after the flag write. -/
def execSubn (x y : RegIdx) (s : State) : Result :=
  let s₁ := s.setV vF (lessFlag (s.getV x) (s.getV y))
  .next (s₁.setV x (s₁.getV y - s₁.getV x))

/-- The register a shift reads (42_alu.md R144). -/
def shiftSource (src : ShiftSrc) (x y : RegIdx) : RegIdx :=
  match src with
  | .vx => x
  | .vy => y

/-- The body of 8xy6 (42_alu.md R138, R144): flag, then the shift of what the source then holds. -/
def shiftRight (src : ShiftSrc) (x y : RegIdx) (s : State) : State :=
  let r := shiftSource src x y
  let s₁ := s.setV vF (lowBitFlag (s.getV r))
  s₁.setV x (s₁.getV r >>> 1)

/-- The body of 8xyE (42_alu.md R140, R144). -/
def shiftLeft (src : ShiftSrc) (x y : RegIdx) (s : State) : State :=
  let r := shiftSource src x y
  let s₁ := s.setV vF (highBitFlag (s.getV r))
  s₁.setV x (s₁.getV r <<< 1)

/-- 8xy6 (42_alu.md R138). -/
def execShr (x y : RegIdx) (s : State) : Result := .next (shiftRight Config.shiftSrc x y s)

/-- 8xyE (42_alu.md R140). -/
def execShl (x y : RegIdx) (s : State) : Result := .next (shiftLeft Config.shiftSrc x y s)

/-- Cxkk (42_alu.md R141): `V[x] <- rnd & kk`, a fresh `rnd` for each execution. -/
def execRnd (x : RegIdx) (kk : Byte) (s : State) : Result := .next (s.useRnd.setV x (s.nextRnd &&& kk))

end Sys2Proof.Machine
end

