-- ==== Sys2Proof/Machine/Raster.lean ====
section
/-! DEFINITION. The framebuffer and the rasterizer (44_display.md R172 to R175). -/

namespace Sys2Proof.Machine

/-- `fb[px, py]` (44_display.md R173). -/
def pixel (f : Framebuffer) (px : Fin 64) (py : Fin 32) : Bool := (f[py.val]'py.isLt).getLsbD px.val

/-- `fb[px, py] <- fb[px, py] XOR 1` -/
def flipPixel (f : Framebuffer) (px : Fin 64) (py : Fin 32) : Framebuffer :=
  f.set py.val ((f[py.val]'py.isLt) ^^^ BitVec.twoPow 64 px.val) py.isLt

/-- Every pixel 0 (44_display.md R170). -/
def clearFb : Framebuffer := Vector.replicate 32 0

/-- The column a sprite column lands on: `(ox + c) mod 64` (44_display.md R172; the origin is not reduced
beforehand, the spec's D29, log 27). -/
def targetX (ox : Byte) (c : Nat) : Fin 64 := Fin.ofNat 64 (ox.toNat + c)

/-- The row a sprite row lands on: `(oy + r) mod 32` (44_display.md R172). -/
def targetY (oy : Byte) (r : Nat) : Fin 32 := Fin.ofNat 32 (oy.toNat + r)

/-- The framebuffer during a draw, with `collided` so far. -/
structure Canvas where
  fb : Framebuffer
  collided : Bool
deriving DecidableEq, Repr

/-- One bit of a sprite on its target pixel: a 0 leaves it, a 1 inverts it and collides if it was 1. -/
def Canvas.plot (k : Canvas) (bit : Bool) (px : Fin 64) (py : Fin 32) : Canvas :=
  if bit then ⟨flipPixel k.fb px py, k.collided || pixel k.fb px py⟩ else k

/-- The columns `c` of a list, of one row byte: bit `7 - c` belongs to column `c`. -/
def Canvas.plotRow (ox oy : Byte) (r : Nat) (row : Byte) : List Nat → Canvas → Canvas
  | [], k => k
  | c :: cs, k => Canvas.plotRow ox oy r row cs (k.plot (row.getLsbD (7 - c)) (targetX ox c) (targetY oy r))

/-- The rows of a sprite from row number `r` on, top to bottom, each from its most significant bit. -/
def Canvas.plotRows (ox oy : Byte) : Nat → List Byte → Canvas → Canvas
  | _, [], k => k
  | r, row :: rows, k => Canvas.plotRows ox oy (r + 1) rows (Canvas.plotRow ox oy r row [0, 1, 2, 3, 4, 5, 6, 7] k)

/-- `Draw(ox, oy, sprite)` (44_display.md R172): the new framebuffer and `collided`. It cannot fault. -/
def draw (f : Framebuffer) (ox oy : Byte) (sprite : List Byte) : Canvas :=
  Canvas.plotRows ox oy 0 sprite ⟨f, false⟩

/-- The 2048 pixels in row-major order, pixel `(px, py)` at index `64 * py + px` (44_display.md R173,
60_exceptions.md R214; the spec's D21, log 26). -/
def snapshotPixels (f : Framebuffer) : List Bool :=
  (List.finRange 32).flatMap fun py => (List.finRange 64).map fun px => pixel f px py

end Sys2Proof.Machine
end

