-- ==== Sys2Proof/Machine/Display.lean ====
section
/-! DEFINITION. Display instructions: 00E0, Dxyn (44_display.md). -/

namespace Sys2Proof.Machine

/-- 00E0 (44_display.md R170). -/
def execCls (s : State) : Result := .next (s.setFb clearFb)

/-- What Dxyn does once its bytes are read: the origin is read after VF was cleared (44_display.md R171). -/
def drawSprite (x y : RegIdx) (sprite : List Byte) (s : State) : State :=
  let k := draw s.fb (s.getV x) (s.getV y) sprite
  let t := s.setFb k.fb
  if k.collided then t.setV vF 1 else t

/-- Dxyn (44_display.md R171): VF cleared, all `n` bytes read, then the draw. With `n = 0` nothing is read
and nothing drawn (the spec's D11, log 14). -/
def execDrw (x y : RegIdx) (n : Nat) (s : State) : Result :=
  let s₁ := s.setV vF 0
  match s₁.readBytes (indexAddr s₁ 0) n with
  | .error f => raise f
  | .ok sprite => .next (drawSprite x y sprite s₁)

end Sys2Proof.Machine
end

