-- ==== Sys2Proof/Machine/Flow.lean ====
section
/-! DEFINITION. Control transfer: 00EE, 1nnn, 2nnn, Bnnn (40_flow.md). In every body `pc` already holds
the address of the following instruction (00_scope.md R15). -/

namespace Sys2Proof.Machine

/-- 00EE (40_flow.md R110). -/
def execRet (s : State) : Result :=
  match s.pop with
  | .error f => raise f
  | .ok (ra, t) => .next (t.setPc ra)

/-- 1nnn (40_flow.md R111). -/
def execJp (nnn : BitVec 12) (s : State) : Result := .next (s.setPc (absTarget nnn))

/-- 2nnn (40_flow.md R112): the pushed value is the address after the call. -/
def execCall (nnn : BitVec 12) (s : State) : Result :=
  match s.push s.pc with
  | .error f => raise f
  | .ok t => .next (t.setPc (absTarget nnn))

/-- Bnnn (40_flow.md R113): the sum is not reduced modulo 4096. -/
def execJpV0 (nnn : BitVec 12) (s : State) : Result := .next (s.setPc (offsetTarget s nnn))

end Sys2Proof.Machine
end

