-- ==== Sys2Proof/Machine/IndexMemory.lean ====
section
/-! DEFINITION. Index register, loads and stores: Annn, Fx1E, Fx29, Fx33, Fx55, Fx65 (43_index_memory.md).
`I` is never changed by a load or store (43_index_memory.md R156; the spec's D12, log 15). -/

namespace Sys2Proof.Machine

/-- Annn (43_index_memory.md R150). -/
def execLdI (nnn : BitVec 12) (s : State) : Result := .next (s.setI (absTarget nnn))

/-- Fx1E (43_index_memory.md R151): no flag, no fault. -/
def execAddI (x : RegIdx) (s : State) : Result := .next (s.setI (indexSum s x))

/-- Fx29 (43_index_memory.md R152). -/
def execLdFont (x : RegIdx) (s : State) : Result := .next (s.setI (glyphAddr (s.getV x)))

/-- Fx33 (43_index_memory.md R153). -/
def execLdBcd (x : RegIdx) (s : State) : Result :=
  settle (s.storeBytes (indexAddr s 0) (bcdDigits (s.getV x)))

/-- Fx55 (43_index_memory.md R154). -/
def execStoreRegs (x : RegIdx) (s : State) : Result := settle (storeBlock (regBlock x) s)

/-- Fx65 (43_index_memory.md R155). -/
def execLoadRegs (x : RegIdx) (s : State) : Result := settle (loadBlock (regBlock x) s)

end Sys2Proof.Machine
end

