-- ==== Sys2Proof/Machine/KeypadTimer.lean ====
section
/-! DEFINITION. Keypad and timer instructions: Ex9E, ExA1, Fx0A, Fx07, Fx15, Fx18 (45_keypad_timer.md). -/

namespace Sys2Proof.Machine

/-- Ex9E (45_keypad_timer.md R190): the field is the key number, `V[x]` is not read (DESIGN CHOICE of the
spec, its D10, unsafe, log 13). -/
def execSkp (k : KeyIdx) (s : State) : Result := .next (s.skipIf (s.isDown k))

/-- ExA1 (45_keypad_timer.md R191): the same reading of the field. -/
def execSknp (k : KeyIdx) (s : State) : Result := .next (s.skipIf (!s.isDown k))

/-- Fx07 (45_keypad_timer.md R194). -/
def execLdVxDt (x : RegIdx) (s : State) : Result := .next (s.setV x s.dt)

/-- Fx0A (45_keypad_timer.md R193): with no key down `pc` goes back, so that the instruction runs again. -/
def execLdVxKey (x : RegIdx) (s : State) : Result :=
  match s.lowestKeyDown with
  | none => .next s.rewind
  | some k => .next (s.setV x (BitVec.ofNat 8 k.val))

/-- Fx15 (45_keypad_timer.md R195). -/
def execLdDtVx (x : RegIdx) (s : State) : Result := .next (s.setDt (s.getV x))

/-- Fx18 (45_keypad_timer.md R196). -/
def execLdStVx (x : RegIdx) (s : State) : Result := .next (s.setSt (s.getV x))

end Sys2Proof.Machine
end

