-- ==== Sys2Proof/Machine/Step.lean ====
section
/-! DEFINITION. One step of the core (30_encoding.md R84), and placing an instruction word where the step
fetches. -/

namespace Sys2Proof.Machine

/-- `Step(rnd)` (30_encoding.md R84): halted test, fetch, advance before the body, dispatch. The input `rnd`
is what `State.nextRnd` gives (log 2). A halted core reports its fault again (60_exceptions.md R205, log 9). -/
def step (s : State) : Host.Outcome State Fault Refusal :=
  match s.fault with
  | some f => raise f
  | none =>
    match s.fetch with
    | .error f => raise f
    | .ok opw =>
      match decode opw with
      | .error _ => raise (.invalidOpcode opw)
      | .ok i => exec i s.advance

/-- `s` with an instruction word stored at `pc`, high byte first, and the core not halted, so that the next
step runs it (log 30). -/
def State.withFetchWord (s : State) (nbits w : Nat) : State :=
  let opw : Word := BitVec.ofNat 16 (w % 2 ^ nbits)
  { s with
    mem := (s.mem.poke s.pc.toNat (highByte opw)).poke (s.pc.toNat + 1) (lowByte opw)
    fault := none }

end Sys2Proof.Machine
end

