-- ==== Sys2Proof/Machine/HostOps.lean ====
section
/-! DEFINITION. The eight operations of the interface (00_scope.md R5), each atomic; lists of them are the
interleavings of the core and the host. An operation that breaks a duty of the host (60_exceptions.md R216) is
refused: the host has no such move. -/

namespace Sys2Proof.Machine

/-- One operation. -/
inductive HostOp where
  /-- `Reset()` -/
  | reset
  /-- `LoadRom(bytes)` -/
  | loadRom (bytes : List Byte)
  /-- `Step(rnd)`; `rest` is what the elements other than FAULT hold if this step faults, which the spec
  leaves unspecified (60_exceptions.md R206), so a claim must hold for every `rest` (log 8). -/
  | step (rnd : Byte) (rest : State)
  /-- `Tick()` -/
  | tick
  /-- `KeyPress(k)` -/
  | keyPress (k : KeyIdx)
  /-- `KeyReleaseAll()` -/
  | keyReleaseAll
  /-- `Snapshot()` -/
  | snapshot
  /-- `ReadFault()` -/
  | readFault
deriving DecidableEq, Repr

/-- What an operation gives back. -/
inductive Report where
  /-- Nothing, or a step that completed. -/
  | done
  /-- The fault a step reports (60_exceptions.md R205). -/
  | faulted (f : Fault)
  /-- The `beep` bit of `Tick()` (60_exceptions.md R211). -/
  | beep (b : Bool)
  /-- The 2048 pixels (60_exceptions.md R214). -/
  | pixels (bits : List Bool)
  /-- The FAULT latch, `none` for `(NONE, 0)`. -/
  | latch (f : Option Fault)
deriving DecidableEq, Repr

/-- The core together with what its host has done: the second field is no state of the machine, but says
whether the host still has the move `LoadRom` (60_exceptions.md R216 (b); log 25). -/
structure Session where
  core : State
  /-- No `Step` has been made since the last `Reset`. -/
  fresh : Bool
deriving DecidableEq, Repr

/-- The machine constructed, nothing done yet (70_reset_and_hazards.md R240). -/
def Session.start : Session := ⟨State.reset, true⟩

/-- The core replaced, the host's phase kept. -/
def Session.withCore (m : Session) (s : State) : Session := { m with core := s }

/-- One count toward 0; never below (60_exceptions.md R210). -/
def countDown (b : Byte) : Byte := if b = 0 then 0 else b - 1

/-- `Tick()` on the state (60_exceptions.md R210). -/
def State.tick (s : State) : State := (s.setDt (countDown s.dt)).setSt (countDown s.st)

/-- The `beep` of `Tick()`: `st > 0` at its start (60_exceptions.md R211; the spec's D18, log 24). -/
def State.beeps (s : State) : Bool := s.st != 0

/-- `KeyPress(k)` on the state (60_exceptions.md R212). -/
def State.pressKey (s : State) (k : KeyIdx) : State := { s with keys := s.keys.set k.val true k.isLt }

/-- `KeyReleaseAll()` on the state (60_exceptions.md R213). -/
def State.releaseKeys (s : State) : State := { s with keys := Vector.replicate 16 false }

/-- `LoadRom(bytes)` on the state (60_exceptions.md R215). -/
def State.loadRom (s : State) (bytes : List Byte) : State :=
  { s with mem := s.mem.writeBytes Config.programBase bytes }

/-- `Reset()` on the state (70_reset_and_hazards.md R240): every element of the core; the host's random input
is not the core's and goes on (log 29). -/
def State.hostReset (s : State) : State := { State.reset with rndIn := s.rndIn, draws := s.draws }

/-- The state with `rnd` as the value the coming step reads (60_exceptions.md R221). -/
def State.offerRnd (s : State) (rnd : Byte) : State := { s with rndIn := rnd :: s.rndIn }

/-- The random input put back as `s` has it, once the offered value is used or dropped. -/
def State.withRndOf (t s : State) : State := { t with rndIn := s.rndIn, draws := s.draws }

/-- `Step(rnd)` on the state. A halted core reports its fault and changes nothing; a step that faults latches
the fault (60_exceptions.md R205, R206). -/
def State.hostStep (s : State) (rnd : Byte) (rest : State) : Except Refusal (State × Report) :=
  match s.fault with
  | some f => .ok (s, .faulted f)
  | none =>
    match Sys2Proof.Machine.step (s.offerRnd rnd) with
    | .next t => .ok (t.withRndOf s, .done)
    | .fault f => .ok (s.latchFault f rest, .faulted f)
    | .refused r => .error r

/-- `Step(rnd)` as an operation: with it the time for `LoadRom` is over (60_exceptions.md R216 (b)). -/
def performStep (rnd : Byte) (rest : State) (m : Session) : Except Refusal (Session × Report) :=
  match m.core.hostStep rnd rest with
  | .ok (s, r) => .ok (⟨s, false⟩, r)
  | .error r => .error r

/-- `LoadRom(bytes)` as an operation: a move only between `Reset` and the first `Step`, and with at most 3584
bytes (00_scope.md R5; 60_exceptions.md R215, R216 (b); the spec's D20, log 25). -/
def performLoadRom (bytes : List Byte) (m : Session) : Except Refusal (Session × Report) :=
  if m.fresh then
    if bytes.length ≤ Config.maxRomBytes then .ok (m.withCore (m.core.loadRom bytes), .done)
    else .error (.romTooLong bytes.length)
  else .error .romTooLate

/-- One operation of the interface: the core and the host's phase after it, and what it gives back. All but
`step` work on a halted core as always (60_exceptions.md R222; the spec's D19, log 28). -/
def perform (op : HostOp) (m : Session) : Except Refusal (Session × Report) :=
  match op with
  | .reset => .ok (⟨m.core.hostReset, true⟩, .done)
  | .loadRom bytes => performLoadRom bytes m
  | .step rnd rest => performStep rnd rest m
  | .tick => .ok (m.withCore m.core.tick, .beep m.core.beeps)
  | .keyPress k => .ok (m.withCore (m.core.pressKey k), .done)
  | .keyReleaseAll => .ok (m.withCore m.core.releaseKeys, .done)
  | .snapshot => .ok (m, .pixels (snapshotPixels m.core.fb))
  | .readFault => .ok (m, .latch m.core.fault)

/-- A list of operations in order (00_scope.md R5): the session after the last one. -/
def performAll : List HostOp → Session → Except Refusal Session
  | [], m => .ok m
  | op :: ops, m =>
    match perform op m with
    | .error r => .error r
    | .ok (t, _) => performAll ops t

/-- The host's duty (b) of 60_exceptions.md R216, read off a list of operations alone: `LoadRom` only between
`Reset` and the first `Step`, with a ROM that fits. `fresh` says whether no step has been made since the last
reset. -/
def dutiesKept : Bool → List HostOp → Bool
  | _, [] => true
  | _, .reset :: ops => dutiesKept true ops
  | fresh, .loadRom bytes :: ops => fresh && decide (bytes.length ≤ Config.maxRomBytes) && dutiesKept fresh ops
  | _, .step _ _ :: ops => dutiesKept false ops
  | fresh, .tick :: ops => dutiesKept fresh ops
  | fresh, .keyPress _ :: ops => dutiesKept fresh ops
  | fresh, .keyReleaseAll :: ops => dutiesKept fresh ops
  | fresh, .snapshot :: ops => dutiesKept fresh ops
  | fresh, .readFault :: ops => dutiesKept fresh ops

/-- The launch state (70_reset_and_hazards.md R242): reset, with the ROM loaded. -/
def launch (rom : List Byte) : State := State.reset.loadRom rom

end Sys2Proof.Machine
end

