-- ==== Sys2Proof/Safety.lean ====
section
/-! DEFINITION. The terms claims use: the elements of the state and who reads and writes them (10_state.md
R35), the invariant of a run, reachable states, the pc table (10_state.md R25). -/

namespace Sys2Proof.Machine

/-! ## Elements -/

/-- One element of the state: a row of 10_state.md R35, down to the single register, byte, pixel or key. -/
inductive Element where
  | v (x : RegIdx)
  | i
  | pc
  | stack (j : Fin 16)
  | sp
  | dt
  | st
  | mem (a : Nat)
  | pixel (px : Fin 64) (py : Fin 32)
  | key (k : KeyIdx)
  | fault
  /-- The host's random input (60_exceptions.md R221). -/
  | rnd
deriving DecidableEq, Repr

/-- An element holds the same value in two states. -/
def Element.same (e : Element) (s t : State) : Prop :=
  match e with
  | .v x => t.getV x = s.getV x
  | .i => t.i = s.i
  | .pc => t.pc = s.pc
  | .stack j => t.getStack j = s.getStack j
  | .sp => t.sp = s.sp
  | .dt => t.dt = s.dt
  | .st => t.st = s.st
  | .mem a => t.mem.read a = s.mem.read a
  | .pixel px py => Machine.pixel t.fb px py = Machine.pixel s.fb px py
  | .key k => t.isDown k = s.isDown k
  | .fault => t.fault = s.fault
  | .rnd => t.rndIn = s.rndIn ∧ t.draws = s.draws

/-- `t` differs from `s` at most in the elements that `p` holds of. -/
def ChangesOnly (p : Element → Prop) (s t : State) : Prop := ∀ e : Element, ¬ p e → e.same s t

/-- The addresses `I` to `I + k`, where a store or load of `k + 1` bytes lands. -/
def inIndexRange (s : State) (k a : Nat) : Prop := indexAddr s 0 ≤ a ∧ a ≤ indexAddr s k

/-- The elements the body of an instruction may write, from state `s` (10_state.md R35, the column "written
by"; R22 for VF). -/
def instrWrites (n : Instr) (s : State) : Element → Prop :=
  match n with
  | .cls => fun e => ∃ px py, e = .pixel px py
  | .ret => fun e => e = .pc ∨ e = .sp
  | .jp _ => fun e => e = .pc
  | .call _ => fun e => e = .pc ∨ e = .sp ∨ ∃ j : Fin 16, j.val = s.sp.val ∧ e = .stack j
  | .seImm _ _ => fun e => e = .pc
  | .sneImm _ _ => fun e => e = .pc
  | .seReg _ _ => fun e => e = .pc
  | .ldImm x _ => fun e => e = .v x
  | .addImm x _ => fun e => e = .v x
  | .ldReg x _ => fun e => e = .v x
  | .orReg x _ => fun e => e = .v x
  | .andReg x _ => fun e => e = .v x
  | .xorReg x _ => fun e => e = .v x
  | .addReg x _ => fun e => e = .v x ∨ e = .v vF
  | .subReg x _ => fun e => e = .v x ∨ e = .v vF
  | .shr x _ => fun e => e = .v x ∨ e = .v vF
  | .subnReg x _ => fun e => e = .v x ∨ e = .v vF
  | .shl x _ => fun e => e = .v x ∨ e = .v vF
  | .sneReg _ _ => fun e => e = .pc
  | .ldI _ => fun e => e = .i
  | .jpV0 _ => fun e => e = .pc
  | .rnd x _ => fun e => e = .v x ∨ e = .rnd
  | .drw _ _ _ => fun e => e = .v vF ∨ ∃ px py, e = .pixel px py
  | .skp _ => fun e => e = .pc
  | .sknp _ => fun e => e = .pc
  | .ldVxDt x => fun e => e = .v x
  | .ldVxKey x => fun e => e = .v x ∨ e = .pc
  | .ldDtVx _ => fun e => e = .dt
  | .ldStVx _ => fun e => e = .st
  | .addI _ => fun e => e = .i
  | .ldFont _ => fun e => e = .i
  | .ldBcd _ => fun e => ∃ a, inIndexRange s 2 a ∧ e = .mem a
  | .storeRegs x => fun e => ∃ a, inIndexRange s x.val a ∧ e = .mem a
  | .loadRegs x => fun e => ∃ r, r ≤ x ∧ e = .v r

/-- The elements the body of an instruction may read, from state `s` (10_state.md R35, the column "read
by"). Every instruction is fetched at `pc`; a body reads `pc` only where its result is `pc` itself or an
address counted from it. -/
def instrReads (n : Instr) (s : State) : Element → Prop :=
  match n with
  | .cls => fun _ => False
  | .ret => fun e => e = .sp ∨ ∃ j : Fin 16, j.val + 1 = s.sp.val ∧ e = .stack j
  | .jp _ => fun _ => False
  | .call _ => fun e => e = .sp ∨ e = .pc
  | .seImm x _ => fun e => e = .pc ∨ e = .v x
  | .sneImm x _ => fun e => e = .pc ∨ e = .v x
  | .seReg x y => fun e => e = .pc ∨ e = .v x ∨ e = .v y
  | .ldImm _ _ => fun _ => False
  | .addImm x _ => fun e => e = .v x
  | .ldReg _ y => fun e => e = .v y
  | .orReg x y => fun e => e = .v x ∨ e = .v y
  | .andReg x y => fun e => e = .v x ∨ e = .v y
  | .xorReg x y => fun e => e = .v x ∨ e = .v y
  | .addReg x y => fun e => e = .v x ∨ e = .v y
  | .subReg x y => fun e => e = .v x ∨ e = .v y
  | .shr x _ => fun e => e = .v x
  | .subnReg x y => fun e => e = .v x ∨ e = .v y
  | .shl x _ => fun e => e = .v x
  | .sneReg x y => fun e => e = .pc ∨ e = .v x ∨ e = .v y
  | .ldI _ => fun _ => False
  | .jpV0 _ => fun e => e = .v 0
  | .rnd _ _ => fun e => e = .rnd
  | .drw x y n => fun e => e = .i ∨ e = .v x ∨ e = .v y ∨ (∃ px py, e = .pixel px py) ∨
      ∃ r, r < n ∧ e = .mem (indexAddr s r)
  | .skp k => fun e => e = .pc ∨ e = .key k
  | .sknp k => fun e => e = .pc ∨ e = .key k
  | .ldVxDt _ => fun e => e = .dt
  | .ldVxKey _ => fun e => e = .pc ∨ ∃ k, e = .key k
  | .ldDtVx x => fun e => e = .v x
  | .ldStVx x => fun e => e = .v x
  | .addI x => fun e => e = .i ∨ e = .v x
  | .ldFont x => fun e => e = .v x
  | .ldBcd x => fun e => e = .i ∨ e = .v x
  | .storeRegs x => fun e => e = .i ∨ ∃ r, r ≤ x ∧ e = .v r
  | .loadRegs x => fun e => e = .i ∨ ∃ a, inIndexRange s x.val a ∧ e = .mem a

/-- Two outcomes of one instruction from `s₁` and `s₂` tell the same: the same fault, or next states in which
every element has the same value or is the one its own start state had. -/
def SameEffect (s₁ s₂ : State) : Result → Result → Prop
  | .next t₁, .next t₂ => ∀ e : Element, e.same t₁ t₂ ∨ (e.same s₁ t₁ ∧ e.same s₂ t₂)
  | .fault f, .fault g => f = g
  | .refused r, .refused q => r = q
  | _, _ => False

/-- The elements a host operation may write (10_state.md R35; 60_exceptions.md
R210 to R215). -/
def HostOp.writes : HostOp → Element → Prop
  | .reset => fun e => e ≠ .rnd
  | .loadRom bytes => fun e =>
      ∃ a, Config.programBase ≤ a ∧ a < Config.programBase + bytes.length ∧ e = .mem a
  | .step _ _ => fun e => e ≠ .rnd
  | .tick => fun e => e = .dt ∨ e = .st
  | .keyPress k => fun e => e = .key k
  | .keyReleaseAll => fun e => ∃ k, e = .key k
  | .snapshot => fun _ => False
  | .readFault => fun _ => False

/-! ## Instructions one after the other -/

/-- Bodies executed in order, stopping at the first that does not answer a next state. -/
def execAll : List Instr → State → Result
  | [], s => .next s
  | i :: is, s =>
    match exec i s with
    | .next t => execAll is t
    | .fault f => .fault f
    | .refused r => .refused r

/-- The byte at an address after the body of an instruction, by the rules of the two that store: the decimal
digits of 43_index_memory.md R153 and the registers of R154; as before everywhere else. -/
def memAfter (n : Instr) (s : State) (a : Nat) : Byte :=
  match n with
  | .ldBcd x =>
    if a = s.i.toNat then BitVec.ofNat 8 ((s.getV x).toNat / 100)
    else if a = s.i.toNat + 1 then BitVec.ofNat 8 ((s.getV x).toNat / 10 % 10)
    else if a = s.i.toNat + 2 then BitVec.ofNat 8 ((s.getV x).toNat % 10)
    else s.mem.read a
  | .storeRegs x =>
    if h : s.i.toNat ≤ a ∧ a ≤ s.i.toNat + x.val then s.getV ⟨a - s.i.toNat, by have := x.isLt; omega⟩
    else s.mem.read a
  | .cls => s.mem.read a
  | .ret => s.mem.read a
  | .jp _ => s.mem.read a
  | .call _ => s.mem.read a
  | .seImm _ _ => s.mem.read a
  | .sneImm _ _ => s.mem.read a
  | .seReg _ _ => s.mem.read a
  | .ldImm _ _ => s.mem.read a
  | .addImm _ _ => s.mem.read a
  | .ldReg _ _ => s.mem.read a
  | .orReg _ _ => s.mem.read a
  | .andReg _ _ => s.mem.read a
  | .xorReg _ _ => s.mem.read a
  | .addReg _ _ => s.mem.read a
  | .subReg _ _ => s.mem.read a
  | .shr _ _ => s.mem.read a
  | .subnReg _ _ => s.mem.read a
  | .shl _ _ => s.mem.read a
  | .sneReg _ _ => s.mem.read a
  | .ldI _ => s.mem.read a
  | .jpV0 _ => s.mem.read a
  | .rnd _ _ => s.mem.read a
  | .drw _ _ _ => s.mem.read a
  | .skp _ => s.mem.read a
  | .sknp _ => s.mem.read a
  | .ldVxDt _ => s.mem.read a
  | .ldVxKey _ => s.mem.read a
  | .ldDtVx _ => s.mem.read a
  | .ldStVx _ => s.mem.read a
  | .addI _ => s.mem.read a
  | .ldFont _ => s.mem.read a
  | .loadRegs _ => s.mem.read a

/-- `n` ticks (60_exceptions.md R210). -/
def tickTimes : Nat → State → State
  | 0, s => s
  | n + 1, s => tickTimes n s.tick

/-- The word at `pc`, for a `pc` whose two bytes exist (20_memory.md R55). -/
def State.wordAtPc (s : State) : Word := wordOfBytes (s.mem.read s.pc.toNat) (s.mem.read (s.pc.toNat + 1))

/-- The core is not halted, the two bytes at `pc` exist, and they spell `i`. -/
def State.about (s : State) (i : Instr) : Prop :=
  s.fault = none ∧ s.pc.toNat + 1 < Config.memSize ∧ decode s.wordAtPc = .ok i

/-- `pc` after a step that executes `n` from `s` (the table of 10_state.md R25). -/
def pcAfter (n : Instr) (s : State) : Word :=
  match n with
  | .jp nnn => nnn.setWidth 16
  | .call nnn => nnn.setWidth 16
  | .ret => if h : s.sp.val - 1 < 16 then s.getStack ⟨s.sp.val - 1, h⟩ else 0
  | .jpV0 nnn => nnn.setWidth 16 + (s.getV 0).setWidth 16
  | .seImm x kk => if s.getV x = kk then s.pc + 4 else s.pc + 2
  | .sneImm x kk => if s.getV x ≠ kk then s.pc + 4 else s.pc + 2
  | .seReg x y => if s.getV x = s.getV y then s.pc + 4 else s.pc + 2
  | .sneReg x y => if s.getV x ≠ s.getV y then s.pc + 4 else s.pc + 2
  | .skp k => if s.isDown k then s.pc + 4 else s.pc + 2
  | .sknp k => if s.isDown k then s.pc + 2 else s.pc + 4
  | .ldVxKey _ => if ∃ k, s.isDown k = true then s.pc + 2 else s.pc
  | .cls => s.pc + 2
  | .ldImm _ _ => s.pc + 2
  | .addImm _ _ => s.pc + 2
  | .ldReg _ _ => s.pc + 2
  | .orReg _ _ => s.pc + 2
  | .andReg _ _ => s.pc + 2
  | .xorReg _ _ => s.pc + 2
  | .addReg _ _ => s.pc + 2
  | .subReg _ _ => s.pc + 2
  | .shr _ _ => s.pc + 2
  | .subnReg _ _ => s.pc + 2
  | .shl _ _ => s.pc + 2
  | .ldI _ => s.pc + 2
  | .rnd _ _ => s.pc + 2
  | .drw _ _ _ => s.pc + 2
  | .ldVxDt _ => s.pc + 2
  | .ldDtVx _ => s.pc + 2
  | .ldStVx _ => s.pc + 2
  | .addI _ => s.pc + 2
  | .ldFont _ => s.pc + 2
  | .ldBcd _ => s.pc + 2
  | .storeRegs _ => s.pc + 2
  | .loadRegs _ => s.pc + 2

/-! ## The rasterizer as a picture -/

/-- The bits of a sprite placed at their wrapped positions, the `S` of 44_display.md R174: some bit equal to
1 of some row lands on `(px, py)`. -/
def spriteCovers (ox oy : Byte) (sprite : List Byte) (px : Fin 64) (py : Fin 32) : Prop :=
  ∃ r c : Nat, ∃ h : r < sprite.length, c < 8 ∧ sprite[r].getLsbD (7 - c) = true ∧
    px.val = (ox.toNat + c) % 64 ∧ py.val = (oy.toNat + r) % 32

/-! ## The invariant of a run -/

/-- A latched or reported fault is one the machine can raise: an address out of bounds is one above 4095
that fits the 16 bits of `FAULT.info` (60_exceptions.md R204). -/
def Fault.legal : Fault → Prop
  | .memoryOutOfBounds a => Config.memSize ≤ a ∧ a < 65536
  | .invalidOpcode _ => True
  | .stackOverflow => True
  | .stackUnderflow => True

/-- What holds between operations. A latched fault is legal; and while the core is not halted, memory has its
canonical form, `pc` is in the range of 10_state.md R26 (0x0000 to 0x10FE), and every stack entry in use is
a return address, 0x002 to 0x1000 (40_flow.md R110). Nothing is said of a halted core's other elements, which
are unspecified (60_exceptions.md R206). -/
def State.Inv (s : State) : Prop :=
  (∀ f, s.fault = some f → f.legal) ∧
  (s.fault = none →
    s.mem.wf ∧ s.pc.toNat ≤ 0x10FE ∧
    ∀ j : Fin 16, j.val < s.sp.val → 2 ≤ (s.getStack j).toNat ∧ (s.getStack j).toNat ≤ 0x1000)

/-- What some list of operations reaches from reset (00_scope.md R5: the host may issue them in any order,
within its duties, 60_exceptions.md R216). -/
inductive Reachable : Session → Prop where
  | start : Reachable Session.start
  | next {m t : Session} {r : Report} (op : HostOp) (hm : Reachable m) (h : perform op m = .ok (t, r)) : Reachable t

/-- The table of 10_state.md R36. The zeros of memory past the font, of the framebuffer and of the keys are
the spec's D14 (log 3, log 4, log 5), the empty latch its D3 (log 6), that `I` is one of the registers DEDUCED
(log 7); the font bytes are a parameter (log 1). -/
def State.hasResetValues (s : State) : Prop :=
  (∀ x, s.getV x = 0) ∧ s.i = 0 ∧ s.pc = 0x200 ∧ (∀ j, s.getStack j = 0) ∧ s.sp = 0 ∧
  s.dt = 0 ∧ s.st = 0 ∧ (∀ a, a < 80 → s.mem.read a = Config.font a) ∧
  (∀ a, 80 ≤ a → s.mem.read a = 0) ∧ (∀ px py, pixel s.fb px py = false) ∧
  (∀ k, s.isDown k = false) ∧ s.fault = none

/-- The spec's convention for a finished program (70_reset_and_hazards.md R251): `pc` holds the address of a
jump to itself. -/
def State.atSelfJump (s : State) : Prop := ∃ nnn, s.about (.jp nnn) ∧ s.pc = nnn.setWidth 16

end Sys2Proof.Machine
end

