-- ==== Sys2Proof/Certificates/Slice0/Obligations.lean ====
section
/-! DEFINITION. The statements for the provers. Each docstring names the rule of spec/ it formalises and, where
a clause is the spec's own decision or the model's choice, the log entry. -/

open Sys2Proof Sys2Proof.Machine

/-! ## Encoding -/

/-- Words written out from the encodings of 30_encoding.md R82 and R86, with the document's own examples
(95_test_vectors.md S2 to S10), and three words of R87's list of illegal ones. -/
def Obligations.SampleWordsDecode : Prop :=
  decode 0x00E0 = .ok .cls ∧ decode 0x00EE = .ok .ret ∧
  decode 0x1ABC = .ok (.jp 0xABC) ∧ decode 0x2300 = .ok (.call 0x300) ∧
  decode 0x3A02 = .ok (.seImm 0xA 0x02) ∧ decode 0x5120 = .ok (.seReg 1 2) ∧
  decode 0x6A02 = .ok (.ldImm 0xA 0x02) ∧ decode 0x7002 = .ok (.addImm 0 0x02) ∧
  decode 0x8014 = .ok (.addReg 0 1) ∧ decode 0x8015 = .ok (.subReg 0 1) ∧
  decode 0xA2F0 = .ok (.ldI 0x2F0) ∧ decode 0xC00F = .ok (.rnd 0 0x0F) ∧
  decode 0xD015 = .ok (.drw 0 1 5) ∧ decode 0xE59E = .ok (.skp 5) ∧
  decode 0xF10A = .ok (.ldVxKey 1) ∧ decode 0xF255 = .ok (.storeRegs 2) ∧
  decode 0x0001 = .error (.invalidOpcode 0x0001) ∧ decode 0x5011 = .error (.invalidOpcode 0x5011) ∧
  decode 0x8018 = .error (.invalidOpcode 0x8018)

/-- Decode of encode is the instruction, for every well-formed instruction and every value of its operands,
from the word and from the two bytes memory holds (30_encoding.md R86, R89; 20_memory.md R55). -/
def Obligations.DecodeEncodeRoundTrip : Prop :=
  ∀ i : Instr, i.wellFormed = true →
    decode (encode i) = .ok i ∧
    ∀ rest, decodeBytes (highByte (encode i) :: lowByte (encode i) :: rest) = .ok (i, rest)

/-- Every valid word has one meaning, and the word is read off that meaning whole: no bit is dropped, the
ignored `y` of 8xy6 and 8xyE included (30_encoding.md R88, R89). -/
def Obligations.EncodeDecodeRoundTrip : Prop :=
  ∀ (w : Word) (i : Instr), decode w = .ok i → i.wellFormed = true ∧ encode i = w

/-- The decoder is the opcode map: it gives an instruction exactly where a row of the table matches the word
under its mask, the one of that row's mnemonic (30_encoding.md R85, R86, R89). -/
def Obligations.DecodeAgreesWithOpcodeTable : Prop :=
  ∀ w : Word,
    (∀ i, decode w = .ok i → ∃ r ∈ opcodeTable, r.mnemonic = i.mnemonic ∧ r.matches w = true) ∧
    (∀ r ∈ opcodeTable, r.matches w = true → ∃ i, decode w = .ok i ∧ i.mnemonic = r.mnemonic)

/-- At most one row of the opcode map matches a word (30_encoding.md R85, where the spec derives it). -/
def Obligations.NoWordMatchesTwoRows : Prop :=
  ∀ (w : Word) (r q : OpcodeRow), r ∈ opcodeTable → q ∈ opcodeTable →
    r.matches w = true → q.matches w = true → r = q

/-- 60_exceptions.md R201: a fetched word that matches no row raises InvalidOpcode with that word, and a word
that matches one never does. -/
def Obligations.UnmatchedWordRaisesInvalidOpcode : Prop :=
  ∀ (s : State) (w : Word), s.fault = none → s.fetch = .ok w →
    ((∀ r ∈ opcodeTable, r.matches w = false) → step s = .fault (.invalidOpcode w)) ∧
    ((∃ r ∈ opcodeTable, r.matches w = true) → ∀ w', step s ≠ .fault (.invalidOpcode w'))

/-! ## The step -/

/-- The step algorithm of 30_encoding.md R84 over the bytes of memory (20_memory.md R55): a halted core
reports its fault again (the model's form of the spec's D3, log 9); a first or second byte outside memory
faults with its address; a word that is no instruction faults with the word; and an instruction's body runs
from the state with `pc` advanced by 2. -/
def Obligations.StepFollowsTheStepAlgorithm : Prop :=
  ∀ s : State,
    (∀ f, s.fault = some f → step s = .fault f) ∧
    (s.fault = none → 0xFFF < s.pc.toNat → step s = .fault (.memoryOutOfBounds s.pc.toNat)) ∧
    (s.fault = none → s.pc.toNat = 0xFFF → step s = .fault (.memoryOutOfBounds 0x1000)) ∧
    (s.fault = none → s.pc.toNat < 0xFFF → ∀ opw : Word,
      opw.toNat = 256 * (s.mem.read s.pc.toNat).toNat + (s.mem.read (s.pc.toNat + 1)).toNat →
      (∀ e, decode opw = .error e → step s = .fault (.invalidOpcode opw)) ∧
      (∀ i, decode opw = .ok i → step s = exec i { s with pc := s.pc + 2 }))

/-- No step is refused: decoding is total and every instruction has a meaning (30_encoding.md R89). -/
def Obligations.StepNeverRefuses : Prop :=
  ∀ (s : State) (r : Refusal), step s ≠ .refused r

/-- The only faults a body raises: StackUnderflow by 00EE, StackOverflow by 2nnn, MemoryOutOfBounds by Dxyn,
Fx33, Fx55, Fx65 (60_exceptions.md R200, R207). -/
def Obligations.FaultKindOfEachInstruction : Prop :=
  ∀ (i : Instr) (s : State) (f : Fault), exec i s = .fault f →
    (i = .ret ∧ f = .stackUnderflow) ∨
    (∃ nnn, i = .call nnn ∧ f = .stackOverflow) ∨
    (∃ a, f = .memoryOutOfBounds a ∧
      ((∃ x y n, i = .drw x y n) ∨ ∃ x, i = .ldBcd x ∨ i = .storeRegs x ∨ i = .loadRegs x))

/-- The pc table of 10_state.md R25, for every instruction: a step that completes leaves the `pc` the table
gives. -/
def Obligations.PcAfterEachStep : Prop :=
  ∀ (s t : State) (i : Instr), s.about i → step s = .next t → t.pc = pcAfter i s

/-- The address a step reports in MemoryOutOfBounds lies in 0x1000 to 0xFFFF (60_exceptions.md R204, where the
spec derives it). -/
def Obligations.ReportedAddressesAreInRange : Prop :=
  ∀ (s : State) (a : Nat), s.fault = none → step s = .fault (.memoryOutOfBounds a) →
    0x1000 ≤ a ∧ a ≤ 0xFFFF

/-! ## Control flow -/

/-- 40_flow.md R111: the jump, and that a step at a jump to itself changes nothing. -/
def Obligations.JumpSetsPc : Prop :=
  ∀ (nnn : BitVec 12) (s : State),
    (∃ t, exec (.jp nnn) s = .next t ∧ t.pc.toNat = nnn.toNat ∧ ChangesOnly (fun e => e = .pc) s t) ∧
    (s.about (.jp nnn) → s.pc.toNat = nnn.toNat → step s = .next s)

/-- 40_flow.md R113: the sum of the target and `V[0]`, never reduced. That a sum past memory completes and only
the next step's fetch faults is the spec's own decision D7 (10_state.md R26, log 22). -/
def Obligations.JumpWithOffsetAddsV0 : Prop :=
  ∀ (nnn : BitVec 12) (s : State), ∃ t, exec (.jpV0 nnn) s = .next t ∧
    t.pc.toNat = nnn.toNat + (s.getV 0).toNat ∧ ChangesOnly (fun e => e = .pc) s t ∧
    (s.fault = none → 0xFFF < nnn.toNat + (s.getV 0).toNat →
      step t = .fault (.memoryOutOfBounds (nnn.toNat + (s.getV 0).toNat))) ∧
    (s.fault = none → nnn.toNat + (s.getV 0).toNat = 0xFFF → step t = .fault (.memoryOutOfBounds 0x1000))

/-- 40_flow.md R112. That the depth is tested before the push, so that 16 calls nest, is the spec's own
decision D2 (log 11). -/
def Obligations.CallPushesReturnAddress : Prop :=
  ∀ (nnn : BitVec 12) (s : State),
    (∀ j : Fin 16, s.sp.val = j.val → ∃ t, exec (.call nnn) s = .next t ∧
      t.pc.toNat = nnn.toNat ∧ t.getStack j = s.pc ∧ t.sp.val = j.val + 1 ∧
      ChangesOnly (fun e => e = .pc ∨ e = .sp ∨ e = .stack j) s t) ∧
    (s.sp.val = 16 → exec (.call nnn) s = .fault .stackOverflow)

/-- 40_flow.md R110. That the popped entry keeps its value, and its width, are the spec's own decision D28
(log 20). -/
def Obligations.ReturnPopsAddress : Prop :=
  ∀ s : State,
    (∀ j : Fin 16, s.sp.val = j.val + 1 → ∃ t, exec .ret s = .next t ∧
      t.pc = s.getStack j ∧ t.sp.val = j.val ∧ ChangesOnly (fun e => e = .pc ∨ e = .sp) s t) ∧
    (s.sp.val = 0 → exec .ret s = .fault .stackUnderflow)

/-- Calls nest like brackets (40_flow.md R110, R112, R114): as many returns as calls bring back `pc` and `sp`
and every entry in use, whatever the targets; and one call more than the stack has room for overflows (the
threshold is the spec's D2, log 11). -/
def Obligations.NestedCallsReturnInReverse : Prop :=
  ∀ (targets : List (BitVec 12)) (s : State),
    (s.sp.val + targets.length ≤ 16 →
      ∃ t, execAll (targets.map Instr.call ++ List.replicate targets.length Instr.ret) s = .next t ∧
        ChangesOnly (fun e => ∃ j : Fin 16, s.sp.val ≤ j.val ∧ e = .stack j) s t) ∧
    (16 < s.sp.val + targets.length → execAll (targets.map Instr.call) s = .fault .stackOverflow)

/-- A state at a self-jump is a fixed point of the step, for ever (40_flow.md R111; 70_reset_and_hazards.md
R251, where it is the spec's convention for a finished program, its D24, log 36). -/
def Obligations.SelfJumpIsAFixedPoint : Prop :=
  ∀ (s : State) (n : Nat), s.atSelfJump → Host.Core.run Sys2Proof.core n s = .next s

/-! ## Skips -/

/-- 41_skip.md R120 to R123: two more on `pc` exactly under the condition, and nothing else. -/
def Obligations.RegisterSkips : Prop :=
  ∀ (x y : RegIdx) (kk : Byte) (s : State),
    exec (.seImm x kk) s = .next (if s.getV x = kk then { s with pc := s.pc + 2 } else s) ∧
    exec (.sneImm x kk) s = .next (if s.getV x = kk then s else { s with pc := s.pc + 2 }) ∧
    exec (.seReg x y) s = .next (if s.getV x = s.getV y then { s with pc := s.pc + 2 } else s) ∧
    exec (.sneReg x y) s = .next (if s.getV x = s.getV y then s else { s with pc := s.pc + 2 })

/-- 45_keypad_timer.md R190, R191. That the field is the key number itself is the spec's own decision D10
(log 13). -/
def Obligations.KeySkips : Prop :=
  ∀ (k : KeyIdx) (s : State),
    exec (.skp k) s = .next (if s.isDown k = true then { s with pc := s.pc + 2 } else s) ∧
    exec (.sknp k) s = .next (if s.isDown k = true then s else { s with pc := s.pc + 2 })

/-! ## Register, arithmetic and logic -/

/-- 42_alu.md R130 to R135: the value written to `V[x]`, and nothing else changes; that VF keeps its value there
is in part the spec's own decision D12 (log 15). -/
def Obligations.LoadsAndLogicWriteVx : Prop :=
  ∀ (x y : RegIdx) (kk : Byte) (s : State),
    (∃ t, exec (.ldImm x kk) s = .next t ∧ t.getV x = kk ∧ ChangesOnly (fun e => e = .v x) s t) ∧
    (∃ t, exec (.addImm x kk) s = .next t ∧ (t.getV x).toNat = ((s.getV x).toNat + kk.toNat) % 256 ∧
      ChangesOnly (fun e => e = .v x) s t) ∧
    (∃ t, exec (.ldReg x y) s = .next t ∧ t.getV x = s.getV y ∧ ChangesOnly (fun e => e = .v x) s t) ∧
    (∃ t, exec (.orReg x y) s = .next t ∧ t.getV x = s.getV x ||| s.getV y ∧
      ChangesOnly (fun e => e = .v x) s t) ∧
    (∃ t, exec (.andReg x y) s = .next t ∧ t.getV x = s.getV x &&& s.getV y ∧
      ChangesOnly (fun e => e = .v x) s t) ∧
    (∃ t, exec (.xorReg x y) s = .next t ∧ t.getV x = s.getV x ^^^ s.getV y ∧
      ChangesOnly (fun e => e = .v x) s t)

/-- 42_alu.md R136: the low byte of the sum in `V[x]`; the carry in VF unless `x` is VF itself.
The order of the two writes is the spec's own decision D1 (log 10). -/
def Obligations.AddWithCarry : Prop :=
  ∀ (x y : RegIdx) (s : State), ∃ t, exec (.addReg x y) s = .next t ∧
    (t.getV x).toNat = ((s.getV x).toNat + (s.getV y).toNat) % 256 ∧
    (x ≠ vF → (t.getV vF).toNat = if (s.getV x).toNat + (s.getV y).toNat > 255 then 1 else 0) ∧
    ChangesOnly (fun e => e = .v x ∨ e = .v vF) s t

/-- 42_alu.md R137, every case of its fields being 0xF or not, as that rule spells them out; those with a field
0xF follow from the spec's own decision D1 (log 10). -/
def Obligations.SubtractWithStrictFlag : Prop :=
  ∀ (x y : RegIdx) (s : State), ∃ t, exec (.subReg x y) s = .next t ∧
    (let a := (s.getV x).toNat
     let b := (s.getV y).toNat
     let f := if a > b then 1 else 0
     (x ≠ vF → y ≠ vF → (t.getV x).toNat = (a + 256 - b) % 256 ∧ (t.getV vF).toNat = f) ∧
     (x ≠ vF → y = vF → (t.getV x).toNat = (a + 256 - f) % 256 ∧ (t.getV vF).toNat = f) ∧
     (x = vF → y ≠ vF → (t.getV vF).toNat = (f + 256 - b) % 256) ∧
     (x = vF → y = vF → (t.getV vF).toNat = 0)) ∧
    ChangesOnly (fun e => e = .v x ∨ e = .v vF) s t

/-- 42_alu.md R139, every case of its fields being 0xF or not, as that rule spells them out; those with a field
0xF follow from the spec's own decision D1 (log 10). -/
def Obligations.ReverseSubtractWithStrictFlag : Prop :=
  ∀ (x y : RegIdx) (s : State), ∃ t, exec (.subnReg x y) s = .next t ∧
    (let a := (s.getV x).toNat
     let b := (s.getV y).toNat
     let f := if a < b then 1 else 0
     (x ≠ vF → y ≠ vF → (t.getV x).toNat = (b + 256 - a) % 256 ∧ (t.getV vF).toNat = f) ∧
     (x ≠ vF → y = vF → (t.getV x).toNat = (f + 256 - a) % 256 ∧ (t.getV vF).toNat = f) ∧
     (x = vF → y ≠ vF → (t.getV vF).toNat = (b + 256 - f) % 256) ∧
     (x = vF → y = vF → (t.getV vF).toNat = 0)) ∧
    ChangesOnly (fun e => e = .v x ∨ e = .v vF) s t

/-- 42_alu.md R138: half of `V[x]`, the old bit 0 in VF; 0 when `x` is VF (the spec's
own decision D1, log 10); `y` makes no difference. -/
def Obligations.ShiftRightHalves : Prop :=
  ∀ (x y : RegIdx) (s : State), ∃ t, exec (.shr x y) s = .next t ∧
    (x ≠ vF → (t.getV x).toNat = (s.getV x).toNat / 2 ∧ (t.getV vF).toNat = (s.getV x).toNat % 2) ∧
    (x = vF → (t.getV vF).toNat = 0) ∧
    (∀ y', exec (.shr x y') s = .next t) ∧
    ChangesOnly (fun e => e = .v x ∨ e = .v vF) s t

/-- 42_alu.md R140: twice `V[x]` modulo 256, the old bit 7 in VF; 0 or 2 when `x` is VF (the
spec's own decision D1, log 10); `y` makes no difference. -/
def Obligations.ShiftLeftDoubles : Prop :=
  ∀ (x y : RegIdx) (s : State), ∃ t, exec (.shl x y) s = .next t ∧
    (x ≠ vF → (t.getV x).toNat = 2 * (s.getV x).toNat % 256 ∧
      (t.getV vF).toNat = (s.getV x).toNat / 128) ∧
    (x = vF → (t.getV vF).toNat = 2 * ((s.getV x).toNat / 128)) ∧
    (∀ y', exec (.shl x y') s = .next t) ∧
    ChangesOnly (fun e => e = .v x ∨ e = .v vF) s t

/-- The other setting of `SHIFT_SRC` (42_alu.md R144; its statement order is the spec's own, D23, log 19):
the shifted `V[y]` in `V[x]` and its shifted-out bit in VF, with the new flag in place of VF where `y` is VF. -/
def Obligations.ShiftBodiesWithVySource : Prop :=
  ∀ (x y : RegIdx) (s : State),
    ((shiftRight .vy x y s).getV x).toNat = (if y = vF then 0 else (s.getV y).toNat / 2) ∧
    (x ≠ vF → ((shiftRight .vy x y s).getV vF).toNat = (s.getV y).toNat % 2) ∧
    ((shiftLeft .vy x y s).getV x).toNat =
      (if y = vF then 2 * ((s.getV y).toNat / 128) else 2 * (s.getV y).toNat % 256) ∧
    (x ≠ vF → ((shiftLeft .vy x y s).getV vF).toNat = (s.getV y).toNat / 128)

/-- Cxkk completes in every state: the value the host has named is masked and used up, and where none is named
a free value is (42_alu.md R141; how the input is held is the model's, log 2). -/
def Obligations.RandomByteIsMaskedAndUsed : Prop :=
  ∀ (x : RegIdx) (kk : Byte) (s : State),
    (∀ b rest, s.rndIn = b :: rest → ∃ t, exec (.rnd x kk) s = .next t ∧ t.getV x = b &&& kk ∧
      t.rndIn = rest ∧ t.draws = s.draws ∧ ChangesOnly (fun e => e = .v x ∨ e = .rnd) s t) ∧
    (s.rndIn = [] → ∃ t, exec (.rnd x kk) s = .next t ∧ t.getV x = Config.freeRnd s.draws &&& kk ∧
      t.rndIn = [] ∧ t.draws = s.draws + 1 ∧ ChangesOnly (fun e => e = .v x ∨ e = .rnd) s t)

/-- 42_alu.md R141 at the interface (the free input is the spec's own decision D22, log 2), for every value of
`rnd`, 255 included: `Step(rnd)` on Cxkk writes `rnd & kk`; and no other step depends on `rnd`, be it of another
instruction, of a word of no row, of a `pc` past memory or of a halted core. -/
def Obligations.StepReadsItsRandomInput : Prop :=
  ∀ (m : Session) (rest : State) (b : Byte),
    (∀ x kk, m.core.about (.rnd x kk) → ∃ t, perform (.step b rest) m = .ok (t, .done) ∧
      t.core.getV x = b &&& kk ∧ ChangesOnly (fun e => e = .v x ∨ e = .pc) m.core t.core) ∧
    ((∀ x kk, ¬ m.core.about (.rnd x kk)) → ∀ c, perform (.step c rest) m = perform (.step b rest) m)

/-! ## Index register and memory -/

/-- 43_index_memory.md R150. -/
def Obligations.LoadIndexSetsI : Prop :=
  ∀ (nnn : BitVec 12) (s : State), ∃ t, exec (.ldI nnn) s = .next t ∧
    t.i.toNat = nnn.toNat ∧ ChangesOnly (fun e => e = .i) s t

/-- 43_index_memory.md R151 and R152. The wrap of `I` at 65536 is the spec's D8 (log 16), the unmasked `V[x]`
of Fx29 its D27 (log 18). -/
def Obligations.IndexArithmetic : Prop :=
  ∀ (x : RegIdx) (s : State),
    (∃ t, exec (.addI x) s = .next t ∧ t.i.toNat = (s.i.toNat + (s.getV x).toNat) % 65536 ∧
      ChangesOnly (fun e => e = .i) s t) ∧
    (∃ t, exec (.ldFont x) s = .next t ∧ t.i.toNat = 5 * (s.getV x).toNat ∧
      ChangesOnly (fun e => e = .i) s t)

/-- 43_index_memory.md R153: the three digits at `I`, `I + 1`, `I + 2`, every other byte as before; and the
fault with the first address out of range (20_memory.md R67, the spec's own decision D6, log 21). That `I` stays
is its D12 (log 15), here and in the next two statements. -/
def Obligations.BcdStoresDigits : Prop :=
  ∀ (x : RegIdx) (s : State),
    (indexAddr s 2 ≤ 4095 → ∃ t, exec (.ldBcd x) s = .next t ∧
      (t.mem.read (indexAddr s 0)).toNat = (s.getV x).toNat / 100 ∧
      (t.mem.read (indexAddr s 1)).toNat = (s.getV x).toNat / 10 % 10 ∧
      (t.mem.read (indexAddr s 2)).toNat = (s.getV x).toNat % 10 ∧
      ChangesOnly (fun e => ∃ a, inIndexRange s 2 a ∧ e = .mem a) s t) ∧
    (4095 < s.i.toNat → exec (.ldBcd x) s = .fault (.memoryOutOfBounds s.i.toNat)) ∧
    (s.i.toNat ≤ 4095 → 4095 < indexAddr s 2 → exec (.ldBcd x) s = .fault (.memoryOutOfBounds 0x1000))

/-- 43_index_memory.md R154: `V[r]` at `I + r` for every `r` up to `x`, every other byte as before; and the
fault exactly when `I + x` is out of range, with the first such address (D6, log 21). -/
def Obligations.StoreRegistersAtIndex : Prop :=
  ∀ (x : RegIdx) (s : State),
    (indexAddr s x.val ≤ 4095 → ∃ t, exec (.storeRegs x) s = .next t ∧
      (∀ r, r ≤ x → t.mem.read (indexAddr s r.val) = s.getV r) ∧
      ChangesOnly (fun e => ∃ a, inIndexRange s x.val a ∧ e = .mem a) s t) ∧
    (4095 < s.i.toNat → exec (.storeRegs x) s = .fault (.memoryOutOfBounds s.i.toNat)) ∧
    (s.i.toNat ≤ 4095 → 4095 < indexAddr s x.val →
      exec (.storeRegs x) s = .fault (.memoryOutOfBounds 0x1000))

/-- 43_index_memory.md R155: `V[r]` from `I + r` for every `r` up to `x`, registers above `x`, `I` and memory
as before; and the fault exactly when `I + x` is out of range, with the first such address (D6, log 21). -/
def Obligations.LoadRegistersFromIndex : Prop :=
  ∀ (x : RegIdx) (s : State),
    (indexAddr s x.val ≤ 4095 → ∃ t, exec (.loadRegs x) s = .next t ∧
      (∀ r, r ≤ x → t.getV r = s.mem.read (indexAddr s r.val)) ∧
      ChangesOnly (fun e => ∃ r, r ≤ x ∧ e = .v r) s t) ∧
    (4095 < s.i.toNat → exec (.loadRegs x) s = .fault (.memoryOutOfBounds s.i.toNat)) ∧
    (s.i.toNat ≤ 4095 → 4095 < indexAddr s x.val →
      exec (.loadRegs x) s = .fault (.memoryOutOfBounds 0x1000))

/-- What Fx55 stored, Fx65 with the same `x` loads back, from any state with that memory and `I`
(43_index_memory.md R154, R155). -/
def Obligations.StoreThenLoadRestores : Prop :=
  ∀ (x : RegIdx) (s t u : State), exec (.storeRegs x) s = .next t → u.mem = t.mem → u.i = t.i →
    ∃ w, exec (.loadRegs x) u = .next w ∧ ∀ r, r ≤ x → w.getV r = s.getV r

/-- 20_memory.md R52 and R53: the bound, the byte read, and that a write changes exactly one byte. That a write
succeeds at every address up to 4095, the font's included, is the spec's own decision D13 (R60, log 17). -/
def Obligations.MemoryPrimitives : Prop :=
  ∀ (s : State) (a : Nat) (b : Byte),
    (a ≤ 4095 → s.memRead a = .ok (s.mem.read a) ∧
      ∃ t, s.memWrite a b = .ok t ∧ t.mem.read a = b ∧ ChangesOnly (fun e => e = .mem a) s t) ∧
    (4095 < a → s.memRead a = .error (.memoryOutOfBounds a) ∧
      s.memWrite a b = .error (.memoryOutOfBounds a))

/-- The canonical form is one: memories in it that read alike are the same list (the model's own form of
20_memory.md R51). -/
def Obligations.EqualMemoriesAreEqualLists : Prop :=
  ∀ m n : Memory, m.wf → n.wf → (∀ a, m.read a = n.read a) → m = n

/-- The fetch sees every earlier store (20_memory.md R56, R64): after the body of any instruction, at any `pc`
whose word lies in memory, the word a core with that memory executes is made of the bytes the instruction stored
(`memAfter`: Fx33's digits, Fx55's registers) where it stored, and of the earlier bytes elsewhere, also where only
one of the two was stored. -/
def Obligations.StoredBytesAreFetchedNext : Prop :=
  ∀ (i : Instr) (s t u : State), exec i s = .next t →
    u.mem = t.mem → u.fault = none → u.pc.toNat < 0xFFF →
    ∀ opw : Word,
      opw.toNat = 256 * (memAfter i s u.pc.toNat).toNat + (memAfter i s (u.pc.toNat + 1)).toNat →
      (∀ j, decode opw = .ok j → step u = exec j { u with pc := u.pc + 2 }) ∧
      (∀ e, decode opw = .error e → step u = .fault (.invalidOpcode opw))

/-! ## Display -/

/-- 44_display.md R170. -/
def Obligations.ClearDisplayZeroesEveryPixel : Prop :=
  ∀ s : State, ∃ t, exec .cls s = .next t ∧ (∀ px py, pixel t.fb px py = false) ∧
    ChangesOnly (fun e => ∃ px py, e = .pixel px py) s t

/-- The scan of 44_display.md R172 is the picture of R174: each pixel is XORed with the sprite's bits placed
at their wrapped positions. -/
def Obligations.DrawIsExclusiveOr : Prop :=
  ∀ (f : Framebuffer) (ox oy : Byte) (sprite : List Byte), sprite.length ≤ 15 →
    ∀ px py,
      (spriteCovers ox oy sprite px py → pixel (draw f ox oy sprite).fb px py = !pixel f px py) ∧
      (¬ spriteCovers ox oy sprite px py → pixel (draw f ox oy sprite).fb px py = pixel f px py)

/-- 44_display.md R175. -/
def Obligations.CollisionIffLitPixelHit : Prop :=
  ∀ (f : Framebuffer) (ox oy : Byte) (sprite : List Byte), sprite.length ≤ 15 →
    ((draw f ox oy sprite).collided = true ↔
      ∃ px py, spriteCovers ox oy sprite px py ∧ pixel f px py = true)

/-- Drawing the same sprite twice at one origin restores the framebuffer (44_display.md R174). -/
def Obligations.DrawTwiceRestores : Prop :=
  ∀ (f : Framebuffer) (ox oy : Byte) (sprite : List Byte), sprite.length ≤ 15 →
    (draw (draw f ox oy sprite).fb ox oy sprite).fb = f

/-- 44_display.md R171 with R172 and R175, pixel by pixel, for every sprite height: an origin taken from VF is
0; VF tells the collision; nothing else changes; and the fault with the first address out of range. Dxy0 is
the spec's own decision D11 (log 14), VF cleared before the origin is read its D1 (log 10). -/
def Obligations.DrawInstruction : Prop :=
  ∀ (x y : RegIdx) (n : Nat) (s : State), n ≤ 15 →
    (let ox := if x = vF then 0 else s.getV x
     let oy := if y = vF then 0 else s.getV y
     let sprite := (List.range n).map fun r => s.mem.read (indexAddr s r)
     (n = 0 ∨ s.i.toNat + n ≤ 4096 → ∃ t, exec (.drw x y n) s = .next t ∧
       (∀ px py, (spriteCovers ox oy sprite px py → pixel t.fb px py = !pixel s.fb px py) ∧
         (¬ spriteCovers ox oy sprite px py → pixel t.fb px py = pixel s.fb px py)) ∧
       ((∃ px py, spriteCovers ox oy sprite px py ∧ pixel s.fb px py = true) → t.getV vF = 1) ∧
       (¬ (∃ px py, spriteCovers ox oy sprite px py ∧ pixel s.fb px py = true) → t.getV vF = 0) ∧
       ChangesOnly (fun e => e = .v vF ∨ ∃ px py, e = .pixel px py) s t)) ∧
    (n ≠ 0 → 4095 < s.i.toNat → exec (.drw x y n) s = .fault (.memoryOutOfBounds s.i.toNat)) ∧
    (s.i.toNat ≤ 4095 → 4096 < s.i.toNat + n → exec (.drw x y n) s = .fault (.memoryOutOfBounds 0x1000))

/-! ## Keypad and timers -/

/-- 45_keypad_timer.md R193: with no key down `pc` goes back and nothing else changes; with some key down its
number is written. That it is the lowest of several is the spec's own decision D9 (R192, log 12). -/
def Obligations.KeyWaitReadsLowestKey : Prop :=
  ∀ (x : RegIdx) (s : State),
    ((∀ k, s.isDown k = false) → exec (.ldVxKey x) s = .next { s with pc := s.pc - 2 }) ∧
    (∀ k, s.isDown k = true → (∀ j, j < k → s.isDown j = false) →
      ∃ t, exec (.ldVxKey x) s = .next t ∧ (t.getV x).toNat = k.val ∧ ChangesOnly (fun e => e = .v x) s t)

/-- While no key is down, any number of steps at Fx0A change no state at all (45_keypad_timer.md R193,
70_reset_and_hazards.md R246). -/
def Obligations.KeyWaitSpins : Prop :=
  ∀ (x : RegIdx) (s : State) (n : Nat), s.about (.ldVxKey x) → (∀ k, s.isDown k = false) →
    Host.Core.run Sys2Proof.core n s = .next s

/-- 45_keypad_timer.md R194, R195, R196. -/
def Obligations.TimerTransfers : Prop :=
  ∀ (x : RegIdx) (s : State),
    (∃ t, exec (.ldVxDt x) s = .next t ∧ t.getV x = s.dt ∧ ChangesOnly (fun e => e = .v x) s t) ∧
    (∃ t, exec (.ldDtVx x) s = .next t ∧ t.dt = s.getV x ∧ ChangesOnly (fun e => e = .dt) s t) ∧
    (∃ t, exec (.ldStVx x) s = .next t ∧ t.st = s.getV x ∧ ChangesOnly (fun e => e = .st) s t)

/-- 60_exceptions.md R210, in every state, a halted one included (R222, the spec's own decision D19, log 28); the
beep is its D18 (log 24). -/
def Obligations.TickCountsDown : Prop :=
  ∀ m : Session, ∃ t b, perform .tick m = .ok (t, .beep b) ∧
    t.core.dt.toNat = m.core.dt.toNat - 1 ∧ t.core.st.toNat = m.core.st.toNat - 1 ∧
    (b = true ↔ 0 < m.core.st.toNat) ∧ ChangesOnly (fun e => e = .dt ∨ e = .st) m.core t.core

/-- Exactly the next `st` ticks beep, and the timers stop at 0 (60_exceptions.md R210, R211; that the request is
a pulse per tick is the spec's D18, log 24). -/
def Obligations.BeepsExactlyStTicks : Prop :=
  ∀ (s : State) (fresh : Bool) (n : Nat),
    perform .tick ⟨tickTimes n s, fresh⟩ =
      .ok (⟨tickTimes (n + 1) s, fresh⟩, .beep (decide (n < s.st.toNat))) ∧
    (tickTimes n s).dt.toNat = s.dt.toNat - n ∧ (tickTimes n s).st.toNat = s.st.toNat - n

/-! ## Host operations and faults -/

/-- 60_exceptions.md R212 and R213. -/
def Obligations.KeyOperations : Prop :=
  ∀ (m : Session) (k : KeyIdx),
    (∃ t, perform (.keyPress k) m = .ok (t, .done) ∧ t.core.isDown k = true ∧
      ChangesOnly (fun e => e = .key k) m.core t.core) ∧
    (∃ t, perform .keyReleaseAll m = .ok (t, .done) ∧ (∀ j, t.core.isDown j = false) ∧
      ChangesOnly (fun e => ∃ j, e = .key j) m.core t.core)

/-- 60_exceptions.md R215, R216 (b): before the first step the bytes from 0x200 upward and nothing else. The bound
of 3584 bytes, and that more of them, or a call after the first step, is no move, are the spec's D20 (log 25). -/
def Obligations.LoadRomPlacesBytes : Prop :=
  ∀ (bytes : List Byte) (m : Session),
    (m.fresh = true → bytes.length ≤ 3584 →
      ∃ t, perform (.loadRom bytes) m = .ok (t, .done) ∧ t.fresh = true ∧
      (∀ (k : Nat) (h : k < bytes.length), t.core.mem.read (0x200 + k) = bytes[k]) ∧
      ChangesOnly (fun e => ∃ a, 0x200 ≤ a ∧ a < 0x200 + bytes.length ∧ e = .mem a) m.core t.core) ∧
    (m.fresh = true → 3584 < bytes.length → perform (.loadRom bytes) m = .error (.romTooLong bytes.length)) ∧
    (m.fresh = false → perform (.loadRom bytes) m = .error .romTooLate)

/-- 60_exceptions.md R214: 2048 pixels, nothing changed. The row-major order is the spec's D21 (log 26). -/
def Obligations.SnapshotIsRowMajor : Prop :=
  ∀ m : Session, ∃ bits, perform .snapshot m = .ok (m, .pixels bits) ∧ bits.length = 2048 ∧
    ∀ (px : Fin 64) (py : Fin 32), bits[64 * py.val + px.val]? = some (pixel m.core.fb px py)

/-- Fault entry (60_exceptions.md R200, R205; the latch is the spec's D3, its codes D5, log 8): a step that
faults reports the fault and latches it with its code and its information, whatever the unspecified elements
are; from then on every step reports the same fault and changes nothing, and `ReadFault` gives it. -/
def Obligations.FaultLatchesAndHalts : Prop :=
  ∀ (m : Session) (rest : State) (b : Byte) (f : Fault),
    m.core.fault = none → step (m.core.offerRnd b) = .fault f →
    ∃ t, perform (.step b rest) m = .ok (t, .faulted f) ∧ t.core.fault = some f ∧
      (∀ c rest', perform (.step c rest') t = .ok (t, .faulted f)) ∧
      perform .readFault t = .ok (t, .latch (some f)) ∧
      (∀ w, f = .invalidOpcode w → t.core.faultKind = 1 ∧ t.core.faultInfo = w) ∧
      (f = .stackOverflow → t.core.faultKind = 2 ∧ t.core.faultInfo = 0) ∧
      (f = .stackUnderflow → t.core.faultKind = 3 ∧ t.core.faultInfo = 0) ∧
      (∀ a, f = .memoryOutOfBounds a → t.core.faultKind = 4 ∧ t.core.faultInfo.toNat = a)

/-- Only `Reset` leaves the halted state (60_exceptions.md R217; the latch is the spec's D3, log 8): any other
operations keep the latched fault. -/
def Obligations.OnlyResetLeavesTheHaltedState : Prop :=
  ∀ (ops : List HostOp) (m t : Session) (f : Fault), m.core.fault = some f → (∀ op ∈ ops, op ≠ .reset) →
    performAll ops m = .ok t → t.core.fault = some f

/-! ## Reset, invariants, and the whole machine -/

/-- The reset state holds the table of 10_state.md R36, and `Reset()` succeeds in every state, halted or not, with
that table (70_reset_and_hazards.md R240; that it may come at any time is the spec's D26, log 29). Which values are
the spec's own decisions is said at `State.hasResetValues`. -/
def Obligations.ResetStateIsTheTable : Prop :=
  State.reset.hasResetValues ∧
  ∀ m : Session, ∃ t, perform .reset m = .ok (t, .done) ∧ t.fresh = true ∧ t.core.hasResetValues

/-- The invariant holds at reset (10_state.md R26, R36). -/
def Obligations.ResetSatisfiesInvariant : Prop := State.reset.Inv

/-- Every step keeps the invariant: canonical memory, `pc` within 0x0000 to 0x10FE (10_state.md R26), return
addresses within 0x002 to 0x1000 (40_flow.md R110), and a core that has not faulted stays unlatched. -/
def Obligations.StepKeepsInvariant : Prop :=
  ∀ s t : State, s.Inv → step s = .next t → t.Inv ∧ t.fault = none

/-- Every operation keeps the invariant, from every state with it, whatever the host does, whatever `rnd` is, and
whatever a fault leaves behind; so every state that operations reach from reset satisfies it (00_scope.md R5,
10_state.md R26). -/
def Obligations.OperationsKeepInvariant : Prop :=
  (∀ (m t : Session) (op : HostOp) (r : Report), m.core.Inv → perform op m = .ok (t, r) → t.core.Inv) ∧
  ∀ m : Session, Reachable m → m.core.Inv

/-- The column "written by" of 10_state.md R35, for every instruction: a body that completes changes no other
element, down to the single register, stack entry, byte and pixel. -/
def Obligations.InstructionsWriteOnlyTheirElements : Prop :=
  ∀ (i : Instr) (s t : State), exec i s = .next t → ChangesOnly (instrWrites i s) s t

/-- The column "read by" of 10_state.md R35, for every instruction: two states that agree on what the body
reads give the same fault, or next states that differ only where nothing was written. -/
def Obligations.InstructionsReadOnlyTheirElements : Prop :=
  ∀ (i : Instr) (s₁ s₂ : State), (∀ e, instrReads i s₁ e → e.same s₁ s₂) →
    SameEffect s₁ s₂ (exec i s₁) (exec i s₂)

/-- The host operations change only what 10_state.md R35 and 60_exceptions.md R210 to R215 give them; no
operation changes the host's random input, which is not the core's (the model's, log 2). -/
def Obligations.HostOperationsWriteOnlyTheirElements : Prop :=
  ∀ (op : HostOp) (m t : Session) (r : Report), perform op m = .ok (t, r) → ChangesOnly op.writes m.core t.core

/-- The host's moves are exactly those within its duties (60_exceptions.md R216; the spec's own D20 and D30, log 25,
log 31): a list of operations goes through if and only if `LoadRom` stands in it only between a reset and the first
step, with at most 3584 bytes; every other operation goes through in every state. -/
def Obligations.OperationsSucceedWithinDuties : Prop :=
  ∀ (ops : List HostOp) (m : Session), (∃ t, performAll ops m = .ok t) ↔ dutiesKept m.fresh ops = true
end

