-- ==== Sys2Proof/Laws/Decode.lean ====
section
/-! SUPPORT. Fields of a word, the literal bits of the opcode map as numbers, and the words of the four
encoding formats. -/

namespace Sys2Proof

/-! ## The masks of 30_encoding.md R82 -/

theorem toNat_and_F000 (w : Word) : (w &&& 0xF000#16).toNat = w.toNat / 4096 * 4096 := by
  have h : w &&& 0xF000#16 = (w >>> 12) <<< 12 := by
    apply BitVec.eq_of_getLsbD_eq
    intro i hi
    interval_cases i <;> simp
  rw [h, BitVec.toNat_shiftLeft, BitVec.toNat_ushiftRight, Nat.shiftRight_eq_div_pow, Nat.shiftLeft_eq]
  have := w.isLt
  omega

theorem toNat_and_000F (w : Word) : (w &&& 0x000F#16).toNat = w.toNat % 16 := by
  rw [BitVec.toNat_and]
  exact Nat.and_two_pow_sub_one_eq_mod w.toNat 4

theorem toNat_and_00FF (w : Word) : (w &&& 0x00FF#16).toNat = w.toNat % 256 := by
  rw [BitVec.toNat_and]
  exact Nat.and_two_pow_sub_one_eq_mod w.toNat 8

theorem toNat_and_F00F (w : Word) : (w &&& 0xF00F#16).toNat = w.toNat / 4096 * 4096 + w.toNat % 16 := by
  have h : w &&& 0xF00F#16 = (w &&& 0xF000#16) ||| (w &&& 0x000F#16) := by rw [← BitVec.and_or_distrib_left]; rfl
  rw [h, BitVec.toNat_or, toNat_and_F000, toNat_and_000F]
  have := Nat.two_pow_add_eq_or_of_lt (i := 4) (b := w.toNat % 16) (by omega) (w.toNat / 4096 * 256)
  rw [show w.toNat / 4096 * 4096 = 2 ^ 4 * (w.toNat / 4096 * 256) by omega, ← this]

theorem toNat_and_F0FF (w : Word) : (w &&& 0xF0FF#16).toNat = w.toNat / 4096 * 4096 + w.toNat % 256 := by
  have h : w &&& 0xF0FF#16 = (w &&& 0xF000#16) ||| (w &&& 0x00FF#16) := by rw [← BitVec.and_or_distrib_left]; rfl
  rw [h, BitVec.toNat_or, toNat_and_F000, toNat_and_00FF]
  have := Nat.two_pow_add_eq_or_of_lt (i := 8) (b := w.toNat % 256) (by omega) (w.toNat / 4096 * 16)
  rw [show w.toNat / 4096 * 4096 = 2 ^ 8 * (w.toNat / 4096 * 16) by omega, ← this]

theorem toNat_and_FFFF (w : Word) : (w &&& 0xFFFF#16).toNat = w.toNat := by
  have h : w &&& 0xFFFF#16 = w := by
    rw [show 0xFFFF#16 = BitVec.allOnes 16 by decide, BitVec.and_allOnes]
  rw [h]

/-- A row with mask 0xF000 matches exactly the words with its leading nibble. -/
theorem matches_F000 (m : String) (p w : Word) :
    (OpcodeRow.mk m 0xF000 p).matches w = true ↔ w.toNat / 4096 * 4096 = p.toNat := by
  rw [OpcodeRow.matches, beq_iff_eq, ← BitVec.toNat_inj]
  exact iff_of_eq (congrArg (· = p.toNat) (toNat_and_F000 w))

/-- A row with mask 0xF00F: the leading and the last nibble. -/
theorem matches_F00F (m : String) (p w : Word) :
    (OpcodeRow.mk m 0xF00F p).matches w = true ↔ w.toNat / 4096 * 4096 + w.toNat % 16 = p.toNat := by
  rw [OpcodeRow.matches, beq_iff_eq, ← BitVec.toNat_inj]
  exact iff_of_eq (congrArg (· = p.toNat) (toNat_and_F00F w))

/-- A row with mask 0xF0FF: the leading nibble and the low byte. -/
theorem matches_F0FF (m : String) (p w : Word) :
    (OpcodeRow.mk m 0xF0FF p).matches w = true ↔ w.toNat / 4096 * 4096 + w.toNat % 256 = p.toNat := by
  rw [OpcodeRow.matches, beq_iff_eq, ← BitVec.toNat_inj]
  exact iff_of_eq (congrArg (· = p.toNat) (toNat_and_F0FF w))

/-- A row with mask 0xFFFF: the whole word. -/
theorem matches_FFFF (m : String) (p w : Word) :
    (OpcodeRow.mk m 0xFFFF p).matches w = true ↔ w.toNat = p.toNat := by
  rw [OpcodeRow.matches, beq_iff_eq, ← BitVec.toNat_inj]
  exact iff_of_eq (congrArg (· = p.toNat) (toNat_and_FFFF w))

/-! ## Fields as arithmetic -/

theorem fieldOp1_eq (w : Word) : fieldOp1 w = w.toNat / 4096 := by
  have := w.isLt
  simp only [fieldOp1, slice]; omega

theorem fieldX_val (w : Word) : (fieldX w).val = w.toNat / 256 % 16 := by
  simp [fieldX, slice]

theorem fieldY_val (w : Word) : (fieldY w).val = w.toNat / 16 % 16 := by
  simp [fieldY, slice]

theorem fieldN_eq (w : Word) : fieldN w = w.toNat % 16 := by
  simp [fieldN, slice]

theorem fieldKK_toNat (w : Word) : (fieldKK w).toNat = w.toNat % 256 := by
  simp [fieldKK, slice]

theorem fieldNNN_toNat (w : Word) : (fieldNNN w).toNat = w.toNat % 4096 := by
  simp [fieldNNN, slice]

/-- The low byte as `decodeE` and `decodeF` read it. -/
theorem slice_low_byte (w : Word) : slice w 7 0 = w.toNat % 256 := by
  simp [slice]

/-- The low twelve bits as `decode0` reads them. -/
theorem slice_low_twelve (w : Word) : slice w 11 0 = w.toNat % 4096 := by
  simp [slice]

/-! ## The words of the encoding formats -/

theorem encodeNNN_toNat (op1 : Nat) (nnn : BitVec 12) (h : op1 < 16) :
    (encodeNNN op1 nnn).toNat = op1 * 4096 + nnn.toNat := by
  have := nnn.isLt
  rw [encodeNNN, BitVec.toNat_ofNat, Nat.mod_eq_of_lt (by omega)]

theorem encodeXKK_toNat (op1 : Nat) (x : RegIdx) (kk : Byte) (h : op1 < 16) :
    (encodeXKK op1 x kk).toNat = op1 * 4096 + x.val * 256 + kk.toNat := by
  have := kk.isLt
  have := x.isLt
  rw [encodeXKK, BitVec.toNat_ofNat, Nat.mod_eq_of_lt (by omega)]

theorem encodeXYN_toNat (op1 : Nat) (x y : RegIdx) (op4 : Nat) (h : op1 < 16) (h4 : op4 < 16) :
    (encodeXYN op1 x y op4).toNat = op1 * 4096 + x.val * 256 + y.val * 16 + op4 := by
  have := x.isLt
  have := y.isLt
  rw [encodeXYN, BitVec.toNat_ofNat, Nat.mod_eq_of_lt (by omega)]

theorem encodeX_toNat (op1 : Nat) (x : RegIdx) (low : Nat) (h : op1 < 16) (hl : low < 256) :
    (encodeX op1 x low).toNat = op1 * 4096 + x.val * 256 + low := by
  have := x.isLt
  rw [encodeX, BitVec.toNat_ofNat, Nat.mod_eq_of_lt (by omega)]

/-- The two bytes of a word put together again. -/
theorem wordOfBytes_high_low (w : Word) : wordOfBytes (highByte w) (lowByte w) = w := by
  apply BitVec.eq_of_toNat_eq
  have := w.isLt
  simp only [wordOfBytes, highByte, lowByte, slice, BitVec.toNat_append, BitVec.toNat_ofNat]
  have h := Nat.two_pow_add_eq_or_of_lt (i := 8) (b := w.toNat / 2 ^ 0 % 2 ^ (7 + 1 - 0) % 2 ^ 8) (by omega)
    (w.toNat / 2 ^ 8 % 2 ^ (15 + 1 - 8) % 2 ^ 8)
  rw [Nat.shiftLeft_eq, Nat.mul_comm, ← h]
  omega

end Sys2Proof
end

