-- ==== Sys2Proof/Laws/State.lean ====
section
/-! SUPPORT. For each update of the state, one lemma per field and per accessor: what it leaves, what it sets. -/

namespace Sys2Proof.Machine

/-! ### `State.setV` -/

@[simp] theorem State.setV_i (s : State) (x : RegIdx) (b : Byte) : (s.setV x b).i = s.i := rfl
@[simp] theorem State.setV_pc (s : State) (x : RegIdx) (b : Byte) : (s.setV x b).pc = s.pc := rfl
@[simp] theorem State.setV_stack (s : State) (x : RegIdx) (b : Byte) : (s.setV x b).stack = s.stack := rfl
@[simp] theorem State.setV_sp (s : State) (x : RegIdx) (b : Byte) : (s.setV x b).sp = s.sp := rfl
@[simp] theorem State.setV_dt (s : State) (x : RegIdx) (b : Byte) : (s.setV x b).dt = s.dt := rfl
@[simp] theorem State.setV_st (s : State) (x : RegIdx) (b : Byte) : (s.setV x b).st = s.st := rfl
@[simp] theorem State.setV_mem (s : State) (x : RegIdx) (b : Byte) : (s.setV x b).mem = s.mem := rfl
@[simp] theorem State.setV_fb (s : State) (x : RegIdx) (b : Byte) : (s.setV x b).fb = s.fb := rfl
@[simp] theorem State.setV_keys (s : State) (x : RegIdx) (b : Byte) : (s.setV x b).keys = s.keys := rfl
@[simp] theorem State.setV_fault (s : State) (x : RegIdx) (b : Byte) : (s.setV x b).fault = s.fault := rfl
@[simp] theorem State.setV_rndIn (s : State) (x : RegIdx) (b : Byte) : (s.setV x b).rndIn = s.rndIn := rfl
@[simp] theorem State.setV_draws (s : State) (x : RegIdx) (b : Byte) : (s.setV x b).draws = s.draws := rfl
@[simp] theorem State.setV_getStack (s : State) (x : RegIdx) (b : Byte) (j : Fin 16) : (s.setV x b).getStack j = s.getStack j := rfl
@[simp] theorem State.setV_isDown (s : State) (x : RegIdx) (b : Byte) (k' : KeyIdx) : (s.setV x b).isDown k' = s.isDown k' := rfl

/-! ### `State.setI` -/

@[simp] theorem State.setI_v (s : State) (w : Word) : (s.setI w).v = s.v := rfl
@[simp] theorem State.setI_i (s : State) (w : Word) : (s.setI w).i = w := rfl
@[simp] theorem State.setI_pc (s : State) (w : Word) : (s.setI w).pc = s.pc := rfl
@[simp] theorem State.setI_stack (s : State) (w : Word) : (s.setI w).stack = s.stack := rfl
@[simp] theorem State.setI_sp (s : State) (w : Word) : (s.setI w).sp = s.sp := rfl
@[simp] theorem State.setI_dt (s : State) (w : Word) : (s.setI w).dt = s.dt := rfl
@[simp] theorem State.setI_st (s : State) (w : Word) : (s.setI w).st = s.st := rfl
@[simp] theorem State.setI_mem (s : State) (w : Word) : (s.setI w).mem = s.mem := rfl
@[simp] theorem State.setI_fb (s : State) (w : Word) : (s.setI w).fb = s.fb := rfl
@[simp] theorem State.setI_keys (s : State) (w : Word) : (s.setI w).keys = s.keys := rfl
@[simp] theorem State.setI_fault (s : State) (w : Word) : (s.setI w).fault = s.fault := rfl
@[simp] theorem State.setI_rndIn (s : State) (w : Word) : (s.setI w).rndIn = s.rndIn := rfl
@[simp] theorem State.setI_draws (s : State) (w : Word) : (s.setI w).draws = s.draws := rfl
@[simp] theorem State.setI_getV (s : State) (w : Word) (r : RegIdx) : (s.setI w).getV r = s.getV r := rfl
@[simp] theorem State.setI_getStack (s : State) (w : Word) (j : Fin 16) : (s.setI w).getStack j = s.getStack j := rfl
@[simp] theorem State.setI_isDown (s : State) (w : Word) (k' : KeyIdx) : (s.setI w).isDown k' = s.isDown k' := rfl

/-! ### `State.setPc` -/

@[simp] theorem State.setPc_v (s : State) (w : Word) : (s.setPc w).v = s.v := rfl
@[simp] theorem State.setPc_i (s : State) (w : Word) : (s.setPc w).i = s.i := rfl
@[simp] theorem State.setPc_pc (s : State) (w : Word) : (s.setPc w).pc = w := rfl
@[simp] theorem State.setPc_stack (s : State) (w : Word) : (s.setPc w).stack = s.stack := rfl
@[simp] theorem State.setPc_sp (s : State) (w : Word) : (s.setPc w).sp = s.sp := rfl
@[simp] theorem State.setPc_dt (s : State) (w : Word) : (s.setPc w).dt = s.dt := rfl
@[simp] theorem State.setPc_st (s : State) (w : Word) : (s.setPc w).st = s.st := rfl
@[simp] theorem State.setPc_mem (s : State) (w : Word) : (s.setPc w).mem = s.mem := rfl
@[simp] theorem State.setPc_fb (s : State) (w : Word) : (s.setPc w).fb = s.fb := rfl
@[simp] theorem State.setPc_keys (s : State) (w : Word) : (s.setPc w).keys = s.keys := rfl
@[simp] theorem State.setPc_fault (s : State) (w : Word) : (s.setPc w).fault = s.fault := rfl
@[simp] theorem State.setPc_rndIn (s : State) (w : Word) : (s.setPc w).rndIn = s.rndIn := rfl
@[simp] theorem State.setPc_draws (s : State) (w : Word) : (s.setPc w).draws = s.draws := rfl
@[simp] theorem State.setPc_getV (s : State) (w : Word) (r : RegIdx) : (s.setPc w).getV r = s.getV r := rfl
@[simp] theorem State.setPc_getStack (s : State) (w : Word) (j : Fin 16) : (s.setPc w).getStack j = s.getStack j := rfl
@[simp] theorem State.setPc_isDown (s : State) (w : Word) (k' : KeyIdx) : (s.setPc w).isDown k' = s.isDown k' := rfl

/-! ### `State.setDt` -/

@[simp] theorem State.setDt_v (s : State) (b : Byte) : (s.setDt b).v = s.v := rfl
@[simp] theorem State.setDt_i (s : State) (b : Byte) : (s.setDt b).i = s.i := rfl
@[simp] theorem State.setDt_pc (s : State) (b : Byte) : (s.setDt b).pc = s.pc := rfl
@[simp] theorem State.setDt_stack (s : State) (b : Byte) : (s.setDt b).stack = s.stack := rfl
@[simp] theorem State.setDt_sp (s : State) (b : Byte) : (s.setDt b).sp = s.sp := rfl
@[simp] theorem State.setDt_dt (s : State) (b : Byte) : (s.setDt b).dt = b := rfl
@[simp] theorem State.setDt_st (s : State) (b : Byte) : (s.setDt b).st = s.st := rfl
@[simp] theorem State.setDt_mem (s : State) (b : Byte) : (s.setDt b).mem = s.mem := rfl
@[simp] theorem State.setDt_fb (s : State) (b : Byte) : (s.setDt b).fb = s.fb := rfl
@[simp] theorem State.setDt_keys (s : State) (b : Byte) : (s.setDt b).keys = s.keys := rfl
@[simp] theorem State.setDt_fault (s : State) (b : Byte) : (s.setDt b).fault = s.fault := rfl
@[simp] theorem State.setDt_rndIn (s : State) (b : Byte) : (s.setDt b).rndIn = s.rndIn := rfl
@[simp] theorem State.setDt_draws (s : State) (b : Byte) : (s.setDt b).draws = s.draws := rfl
@[simp] theorem State.setDt_getV (s : State) (b : Byte) (r : RegIdx) : (s.setDt b).getV r = s.getV r := rfl
@[simp] theorem State.setDt_getStack (s : State) (b : Byte) (j : Fin 16) : (s.setDt b).getStack j = s.getStack j := rfl
@[simp] theorem State.setDt_isDown (s : State) (b : Byte) (k' : KeyIdx) : (s.setDt b).isDown k' = s.isDown k' := rfl

/-! ### `State.setSt` -/

@[simp] theorem State.setSt_v (s : State) (b : Byte) : (s.setSt b).v = s.v := rfl
@[simp] theorem State.setSt_i (s : State) (b : Byte) : (s.setSt b).i = s.i := rfl
@[simp] theorem State.setSt_pc (s : State) (b : Byte) : (s.setSt b).pc = s.pc := rfl
@[simp] theorem State.setSt_stack (s : State) (b : Byte) : (s.setSt b).stack = s.stack := rfl
@[simp] theorem State.setSt_sp (s : State) (b : Byte) : (s.setSt b).sp = s.sp := rfl
@[simp] theorem State.setSt_dt (s : State) (b : Byte) : (s.setSt b).dt = s.dt := rfl
@[simp] theorem State.setSt_st (s : State) (b : Byte) : (s.setSt b).st = b := rfl
@[simp] theorem State.setSt_mem (s : State) (b : Byte) : (s.setSt b).mem = s.mem := rfl
@[simp] theorem State.setSt_fb (s : State) (b : Byte) : (s.setSt b).fb = s.fb := rfl
@[simp] theorem State.setSt_keys (s : State) (b : Byte) : (s.setSt b).keys = s.keys := rfl
@[simp] theorem State.setSt_fault (s : State) (b : Byte) : (s.setSt b).fault = s.fault := rfl
@[simp] theorem State.setSt_rndIn (s : State) (b : Byte) : (s.setSt b).rndIn = s.rndIn := rfl
@[simp] theorem State.setSt_draws (s : State) (b : Byte) : (s.setSt b).draws = s.draws := rfl
@[simp] theorem State.setSt_getV (s : State) (b : Byte) (r : RegIdx) : (s.setSt b).getV r = s.getV r := rfl
@[simp] theorem State.setSt_getStack (s : State) (b : Byte) (j : Fin 16) : (s.setSt b).getStack j = s.getStack j := rfl
@[simp] theorem State.setSt_isDown (s : State) (b : Byte) (k' : KeyIdx) : (s.setSt b).isDown k' = s.isDown k' := rfl

/-! ### `State.setFb` -/

@[simp] theorem State.setFb_v (s : State) (f : Framebuffer) : (s.setFb f).v = s.v := rfl
@[simp] theorem State.setFb_i (s : State) (f : Framebuffer) : (s.setFb f).i = s.i := rfl
@[simp] theorem State.setFb_pc (s : State) (f : Framebuffer) : (s.setFb f).pc = s.pc := rfl
@[simp] theorem State.setFb_stack (s : State) (f : Framebuffer) : (s.setFb f).stack = s.stack := rfl
@[simp] theorem State.setFb_sp (s : State) (f : Framebuffer) : (s.setFb f).sp = s.sp := rfl
@[simp] theorem State.setFb_dt (s : State) (f : Framebuffer) : (s.setFb f).dt = s.dt := rfl
@[simp] theorem State.setFb_st (s : State) (f : Framebuffer) : (s.setFb f).st = s.st := rfl
@[simp] theorem State.setFb_mem (s : State) (f : Framebuffer) : (s.setFb f).mem = s.mem := rfl
@[simp] theorem State.setFb_fb (s : State) (f : Framebuffer) : (s.setFb f).fb = f := rfl
@[simp] theorem State.setFb_keys (s : State) (f : Framebuffer) : (s.setFb f).keys = s.keys := rfl
@[simp] theorem State.setFb_fault (s : State) (f : Framebuffer) : (s.setFb f).fault = s.fault := rfl
@[simp] theorem State.setFb_rndIn (s : State) (f : Framebuffer) : (s.setFb f).rndIn = s.rndIn := rfl
@[simp] theorem State.setFb_draws (s : State) (f : Framebuffer) : (s.setFb f).draws = s.draws := rfl
@[simp] theorem State.setFb_getV (s : State) (f : Framebuffer) (r : RegIdx) : (s.setFb f).getV r = s.getV r := rfl
@[simp] theorem State.setFb_getStack (s : State) (f : Framebuffer) (j : Fin 16) : (s.setFb f).getStack j = s.getStack j := rfl
@[simp] theorem State.setFb_isDown (s : State) (f : Framebuffer) (k' : KeyIdx) : (s.setFb f).isDown k' = s.isDown k' := rfl

/-! ### `State.advance` -/

@[simp] theorem State.advance_v (s : State) : (s.advance).v = s.v := rfl
@[simp] theorem State.advance_i (s : State) : (s.advance).i = s.i := rfl
@[simp] theorem State.advance_pc (s : State) : (s.advance).pc = s.pc + 2 := rfl
@[simp] theorem State.advance_stack (s : State) : (s.advance).stack = s.stack := rfl
@[simp] theorem State.advance_sp (s : State) : (s.advance).sp = s.sp := rfl
@[simp] theorem State.advance_dt (s : State) : (s.advance).dt = s.dt := rfl
@[simp] theorem State.advance_st (s : State) : (s.advance).st = s.st := rfl
@[simp] theorem State.advance_mem (s : State) : (s.advance).mem = s.mem := rfl
@[simp] theorem State.advance_fb (s : State) : (s.advance).fb = s.fb := rfl
@[simp] theorem State.advance_keys (s : State) : (s.advance).keys = s.keys := rfl
@[simp] theorem State.advance_fault (s : State) : (s.advance).fault = s.fault := rfl
@[simp] theorem State.advance_rndIn (s : State) : (s.advance).rndIn = s.rndIn := rfl
@[simp] theorem State.advance_draws (s : State) : (s.advance).draws = s.draws := rfl
@[simp] theorem State.advance_getV (s : State) (r : RegIdx) : (s.advance).getV r = s.getV r := rfl
@[simp] theorem State.advance_getStack (s : State) (j : Fin 16) : (s.advance).getStack j = s.getStack j := rfl
@[simp] theorem State.advance_isDown (s : State) (k' : KeyIdx) : (s.advance).isDown k' = s.isDown k' := rfl

/-! ### `State.rewind` -/

@[simp] theorem State.rewind_v (s : State) : (s.rewind).v = s.v := rfl
@[simp] theorem State.rewind_i (s : State) : (s.rewind).i = s.i := rfl
@[simp] theorem State.rewind_pc (s : State) : (s.rewind).pc = s.pc - 2 := rfl
@[simp] theorem State.rewind_stack (s : State) : (s.rewind).stack = s.stack := rfl
@[simp] theorem State.rewind_sp (s : State) : (s.rewind).sp = s.sp := rfl
@[simp] theorem State.rewind_dt (s : State) : (s.rewind).dt = s.dt := rfl
@[simp] theorem State.rewind_st (s : State) : (s.rewind).st = s.st := rfl
@[simp] theorem State.rewind_mem (s : State) : (s.rewind).mem = s.mem := rfl
@[simp] theorem State.rewind_fb (s : State) : (s.rewind).fb = s.fb := rfl
@[simp] theorem State.rewind_keys (s : State) : (s.rewind).keys = s.keys := rfl
@[simp] theorem State.rewind_fault (s : State) : (s.rewind).fault = s.fault := rfl
@[simp] theorem State.rewind_rndIn (s : State) : (s.rewind).rndIn = s.rndIn := rfl
@[simp] theorem State.rewind_draws (s : State) : (s.rewind).draws = s.draws := rfl
@[simp] theorem State.rewind_getV (s : State) (r : RegIdx) : (s.rewind).getV r = s.getV r := rfl
@[simp] theorem State.rewind_getStack (s : State) (j : Fin 16) : (s.rewind).getStack j = s.getStack j := rfl
@[simp] theorem State.rewind_isDown (s : State) (k' : KeyIdx) : (s.rewind).isDown k' = s.isDown k' := rfl

/-! ### `State.tick` -/

@[simp] theorem State.tick_v (s : State) : (s.tick).v = s.v := rfl
@[simp] theorem State.tick_i (s : State) : (s.tick).i = s.i := rfl
@[simp] theorem State.tick_pc (s : State) : (s.tick).pc = s.pc := rfl
@[simp] theorem State.tick_stack (s : State) : (s.tick).stack = s.stack := rfl
@[simp] theorem State.tick_sp (s : State) : (s.tick).sp = s.sp := rfl
@[simp] theorem State.tick_mem (s : State) : (s.tick).mem = s.mem := rfl
@[simp] theorem State.tick_fb (s : State) : (s.tick).fb = s.fb := rfl
@[simp] theorem State.tick_keys (s : State) : (s.tick).keys = s.keys := rfl
@[simp] theorem State.tick_fault (s : State) : (s.tick).fault = s.fault := rfl
@[simp] theorem State.tick_rndIn (s : State) : (s.tick).rndIn = s.rndIn := rfl
@[simp] theorem State.tick_draws (s : State) : (s.tick).draws = s.draws := rfl
@[simp] theorem State.tick_getV (s : State) (r : RegIdx) : (s.tick).getV r = s.getV r := rfl
@[simp] theorem State.tick_getStack (s : State) (j : Fin 16) : (s.tick).getStack j = s.getStack j := rfl
@[simp] theorem State.tick_isDown (s : State) (k' : KeyIdx) : (s.tick).isDown k' = s.isDown k' := rfl

/-! ### `State.pressKey` -/

@[simp] theorem State.pressKey_v (s : State) (k : KeyIdx) : (s.pressKey k).v = s.v := rfl
@[simp] theorem State.pressKey_i (s : State) (k : KeyIdx) : (s.pressKey k).i = s.i := rfl
@[simp] theorem State.pressKey_pc (s : State) (k : KeyIdx) : (s.pressKey k).pc = s.pc := rfl
@[simp] theorem State.pressKey_stack (s : State) (k : KeyIdx) : (s.pressKey k).stack = s.stack := rfl
@[simp] theorem State.pressKey_sp (s : State) (k : KeyIdx) : (s.pressKey k).sp = s.sp := rfl
@[simp] theorem State.pressKey_dt (s : State) (k : KeyIdx) : (s.pressKey k).dt = s.dt := rfl
@[simp] theorem State.pressKey_st (s : State) (k : KeyIdx) : (s.pressKey k).st = s.st := rfl
@[simp] theorem State.pressKey_mem (s : State) (k : KeyIdx) : (s.pressKey k).mem = s.mem := rfl
@[simp] theorem State.pressKey_fb (s : State) (k : KeyIdx) : (s.pressKey k).fb = s.fb := rfl
@[simp] theorem State.pressKey_fault (s : State) (k : KeyIdx) : (s.pressKey k).fault = s.fault := rfl
@[simp] theorem State.pressKey_rndIn (s : State) (k : KeyIdx) : (s.pressKey k).rndIn = s.rndIn := rfl
@[simp] theorem State.pressKey_draws (s : State) (k : KeyIdx) : (s.pressKey k).draws = s.draws := rfl
@[simp] theorem State.pressKey_getV (s : State) (k : KeyIdx) (r : RegIdx) : (s.pressKey k).getV r = s.getV r := rfl
@[simp] theorem State.pressKey_getStack (s : State) (k : KeyIdx) (j : Fin 16) : (s.pressKey k).getStack j = s.getStack j := rfl

/-! ### `State.releaseKeys` -/

@[simp] theorem State.releaseKeys_v (s : State) : (s.releaseKeys).v = s.v := rfl
@[simp] theorem State.releaseKeys_i (s : State) : (s.releaseKeys).i = s.i := rfl
@[simp] theorem State.releaseKeys_pc (s : State) : (s.releaseKeys).pc = s.pc := rfl
@[simp] theorem State.releaseKeys_stack (s : State) : (s.releaseKeys).stack = s.stack := rfl
@[simp] theorem State.releaseKeys_sp (s : State) : (s.releaseKeys).sp = s.sp := rfl
@[simp] theorem State.releaseKeys_dt (s : State) : (s.releaseKeys).dt = s.dt := rfl
@[simp] theorem State.releaseKeys_st (s : State) : (s.releaseKeys).st = s.st := rfl
@[simp] theorem State.releaseKeys_mem (s : State) : (s.releaseKeys).mem = s.mem := rfl
@[simp] theorem State.releaseKeys_fb (s : State) : (s.releaseKeys).fb = s.fb := rfl
@[simp] theorem State.releaseKeys_fault (s : State) : (s.releaseKeys).fault = s.fault := rfl
@[simp] theorem State.releaseKeys_rndIn (s : State) : (s.releaseKeys).rndIn = s.rndIn := rfl
@[simp] theorem State.releaseKeys_draws (s : State) : (s.releaseKeys).draws = s.draws := rfl
@[simp] theorem State.releaseKeys_getV (s : State) (r : RegIdx) : (s.releaseKeys).getV r = s.getV r := rfl
@[simp] theorem State.releaseKeys_getStack (s : State) (j : Fin 16) : (s.releaseKeys).getStack j = s.getStack j := rfl

/-! ### `State.loadRom` -/

@[simp] theorem State.loadRom_v (s : State) (bs : List Byte) : (s.loadRom bs).v = s.v := rfl
@[simp] theorem State.loadRom_i (s : State) (bs : List Byte) : (s.loadRom bs).i = s.i := rfl
@[simp] theorem State.loadRom_pc (s : State) (bs : List Byte) : (s.loadRom bs).pc = s.pc := rfl
@[simp] theorem State.loadRom_stack (s : State) (bs : List Byte) : (s.loadRom bs).stack = s.stack := rfl
@[simp] theorem State.loadRom_sp (s : State) (bs : List Byte) : (s.loadRom bs).sp = s.sp := rfl
@[simp] theorem State.loadRom_dt (s : State) (bs : List Byte) : (s.loadRom bs).dt = s.dt := rfl
@[simp] theorem State.loadRom_st (s : State) (bs : List Byte) : (s.loadRom bs).st = s.st := rfl
@[simp] theorem State.loadRom_mem (s : State) (bs : List Byte) : (s.loadRom bs).mem = s.mem.writeBytes Config.programBase bs := rfl
@[simp] theorem State.loadRom_fb (s : State) (bs : List Byte) : (s.loadRom bs).fb = s.fb := rfl
@[simp] theorem State.loadRom_keys (s : State) (bs : List Byte) : (s.loadRom bs).keys = s.keys := rfl
@[simp] theorem State.loadRom_fault (s : State) (bs : List Byte) : (s.loadRom bs).fault = s.fault := rfl
@[simp] theorem State.loadRom_rndIn (s : State) (bs : List Byte) : (s.loadRom bs).rndIn = s.rndIn := rfl
@[simp] theorem State.loadRom_draws (s : State) (bs : List Byte) : (s.loadRom bs).draws = s.draws := rfl
@[simp] theorem State.loadRom_getV (s : State) (bs : List Byte) (r : RegIdx) : (s.loadRom bs).getV r = s.getV r := rfl
@[simp] theorem State.loadRom_getStack (s : State) (bs : List Byte) (j : Fin 16) : (s.loadRom bs).getStack j = s.getStack j := rfl
@[simp] theorem State.loadRom_isDown (s : State) (bs : List Byte) (k' : KeyIdx) : (s.loadRom bs).isDown k' = s.isDown k' := rfl

/-! ### `State.offerRnd` -/

@[simp] theorem State.offerRnd_v (s : State) (b : Byte) : (s.offerRnd b).v = s.v := rfl
@[simp] theorem State.offerRnd_i (s : State) (b : Byte) : (s.offerRnd b).i = s.i := rfl
@[simp] theorem State.offerRnd_pc (s : State) (b : Byte) : (s.offerRnd b).pc = s.pc := rfl
@[simp] theorem State.offerRnd_stack (s : State) (b : Byte) : (s.offerRnd b).stack = s.stack := rfl
@[simp] theorem State.offerRnd_sp (s : State) (b : Byte) : (s.offerRnd b).sp = s.sp := rfl
@[simp] theorem State.offerRnd_dt (s : State) (b : Byte) : (s.offerRnd b).dt = s.dt := rfl
@[simp] theorem State.offerRnd_st (s : State) (b : Byte) : (s.offerRnd b).st = s.st := rfl
@[simp] theorem State.offerRnd_mem (s : State) (b : Byte) : (s.offerRnd b).mem = s.mem := rfl
@[simp] theorem State.offerRnd_fb (s : State) (b : Byte) : (s.offerRnd b).fb = s.fb := rfl
@[simp] theorem State.offerRnd_keys (s : State) (b : Byte) : (s.offerRnd b).keys = s.keys := rfl
@[simp] theorem State.offerRnd_fault (s : State) (b : Byte) : (s.offerRnd b).fault = s.fault := rfl
@[simp] theorem State.offerRnd_rndIn (s : State) (b : Byte) : (s.offerRnd b).rndIn = b :: s.rndIn := rfl
@[simp] theorem State.offerRnd_draws (s : State) (b : Byte) : (s.offerRnd b).draws = s.draws := rfl
@[simp] theorem State.offerRnd_getV (s : State) (b : Byte) (r : RegIdx) : (s.offerRnd b).getV r = s.getV r := rfl
@[simp] theorem State.offerRnd_getStack (s : State) (b : Byte) (j : Fin 16) : (s.offerRnd b).getStack j = s.getStack j := rfl
@[simp] theorem State.offerRnd_isDown (s : State) (b : Byte) (k' : KeyIdx) : (s.offerRnd b).isDown k' = s.isDown k' := rfl

/-! ### Registers, stack and keys as arrays -/

theorem State.getV_setV (s : State) (x r : RegIdx) (b : Byte) :
    (s.setV x b).getV r = if r = x then b else s.getV r := by
  simp only [State.getV, State.setV, Vector.getElem_set, Fin.ext_iff, eq_comm]

@[simp] theorem State.getV_setV_same (s : State) (x : RegIdx) (b : Byte) : (s.setV x b).getV x = b := by
  simp [State.getV_setV]

theorem State.getV_setV_ne (s : State) {x r : RegIdx} (b : Byte) (h : r ≠ x) :
    (s.setV x b).getV r = s.getV r := by
  simp [State.getV_setV, h]

theorem State.isDown_pressKey (s : State) (k j : KeyIdx) :
    (s.pressKey k).isDown j = if j = k then true else s.isDown j := by
  simp only [State.isDown, State.pressKey, Vector.getElem_set, Fin.ext_iff, eq_comm]

@[simp] theorem State.isDown_releaseKeys (s : State) (k : KeyIdx) : s.releaseKeys.isDown k = false := by
  simp [State.isDown, State.releaseKeys]

@[simp] theorem State.tick_dt (s : State) : s.tick.dt = countDown s.dt := rfl
@[simp] theorem State.tick_st (s : State) : s.tick.st = countDown s.st := rfl

/-! ### The random input -/

theorem State.nextRnd_named (s : State) {b : Byte} {rest : List Byte} (h : s.rndIn = b :: rest) :
    s.nextRnd = b := by
  simp [State.nextRnd, h]

theorem State.nextRnd_free (s : State) (h : s.rndIn = []) : s.nextRnd = Config.freeRnd s.draws := by
  simp [State.nextRnd, h]

theorem State.useRnd_named (s : State) {b : Byte} {rest : List Byte} (h : s.rndIn = b :: rest) :
    s.useRnd = { s with rndIn := rest } := by
  simp [State.useRnd, h]

theorem State.useRnd_free (s : State) (h : s.rndIn = []) : s.useRnd = { s with draws := s.draws + 1 } := by
  simp [State.useRnd, h]

@[simp] theorem State.useRnd_v (s : State) : s.useRnd.v = s.v := by unfold State.useRnd; split <;> rfl
@[simp] theorem State.useRnd_i (s : State) : s.useRnd.i = s.i := by unfold State.useRnd; split <;> rfl
@[simp] theorem State.useRnd_pc (s : State) : s.useRnd.pc = s.pc := by unfold State.useRnd; split <;> rfl
@[simp] theorem State.useRnd_stack (s : State) : s.useRnd.stack = s.stack := by unfold State.useRnd; split <;> rfl
@[simp] theorem State.useRnd_sp (s : State) : s.useRnd.sp = s.sp := by unfold State.useRnd; split <;> rfl
@[simp] theorem State.useRnd_dt (s : State) : s.useRnd.dt = s.dt := by unfold State.useRnd; split <;> rfl
@[simp] theorem State.useRnd_st (s : State) : s.useRnd.st = s.st := by unfold State.useRnd; split <;> rfl
@[simp] theorem State.useRnd_mem (s : State) : s.useRnd.mem = s.mem := by unfold State.useRnd; split <;> rfl
@[simp] theorem State.useRnd_fb (s : State) : s.useRnd.fb = s.fb := by unfold State.useRnd; split <;> rfl
@[simp] theorem State.useRnd_keys (s : State) : s.useRnd.keys = s.keys := by unfold State.useRnd; split <;> rfl
@[simp] theorem State.useRnd_fault (s : State) : s.useRnd.fault = s.fault := by unfold State.useRnd; split <;> rfl
@[simp] theorem State.useRnd_getV (s : State) (r : RegIdx) : s.useRnd.getV r = s.getV r := by
  unfold State.useRnd; split <;> rfl
@[simp] theorem State.useRnd_getStack (s : State) (j : Fin 16) : s.useRnd.getStack j = s.getStack j := by
  unfold State.useRnd; split <;> rfl
@[simp] theorem State.useRnd_isDown (s : State) (k' : KeyIdx) : s.useRnd.isDown k' = s.isDown k' := by
  unfold State.useRnd; split <;> rfl

/-! ### Updates that leave the host's random input and the latch, said for the operations -/

@[simp] theorem State.withRndOf_fault (t s : State) : (t.withRndOf s).fault = t.fault := rfl
@[simp] theorem State.withRndOf_mem (t s : State) : (t.withRndOf s).mem = t.mem := rfl
@[simp] theorem State.withRndOf_pc (t s : State) : (t.withRndOf s).pc = t.pc := rfl
@[simp] theorem State.withRndOf_sp (t s : State) : (t.withRndOf s).sp = t.sp := rfl
@[simp] theorem State.withRndOf_getV (t s : State) (r : RegIdx) : (t.withRndOf s).getV r = t.getV r := rfl
@[simp] theorem State.withRndOf_getStack (t s : State) (j : Fin 16) :
    (t.withRndOf s).getStack j = t.getStack j := rfl
@[simp] theorem State.withRndOf_rndIn (t s : State) : (t.withRndOf s).rndIn = s.rndIn := rfl
@[simp] theorem State.withRndOf_draws (t s : State) : (t.withRndOf s).draws = s.draws := rfl
@[simp] theorem State.latchFault_fault (s rest : State) (f : Fault) : (s.latchFault f rest).fault = some f := rfl
@[simp] theorem State.latchFault_rndIn (s rest : State) (f : Fault) : (s.latchFault f rest).rndIn = s.rndIn := rfl
@[simp] theorem State.latchFault_draws (s rest : State) (f : Fault) : (s.latchFault f rest).draws = s.draws := rfl

/-- A skip moves `pc` or nothing. -/
theorem State.skipIf_cases (s : State) (c : Bool) :
    (c = true ∧ s.skipIf c = s.setPc (s.pc + 2)) ∨ (c = false ∧ s.skipIf c = s) := by
  cases c <;> simp [State.skipIf, State.advance]

end Sys2Proof.Machine
end

