-- ==== Sys2Proof/Laws/Ops.lean ====
section
/-! SUPPORT. One lemma per shared operation: everything it can do. The provers cite these instead of unfolding
the operation. -/

namespace Sys2Proof.Machine

/-! ## Call stack -/

theorem State.push_of_room (s : State) (w : Word) (h : s.sp.val < 16) :
    s.push w = .ok { s with stack := s.stack.set s.sp.val w h, sp := ⟨s.sp.val + 1, Nat.succ_lt_succ h⟩ } :=
  dif_pos h

theorem State.push_full (s : State) (w : Word) (h : s.sp.val = 16) : s.push w = .error .stackOverflow :=
  dif_neg (by simp [h])

theorem State.pop_empty (s : State) (h : s.sp.val = 0) : s.pop = .error .stackUnderflow :=
  dif_neg (by simp [h])

theorem State.pop_of_pos (s : State) (j : Fin 16) (h : s.sp.val = j.val + 1) :
    s.pop = .ok (s.getStack j, { s with sp := j.castSucc }) := by
  have hj : (⟨s.sp.val - 1, by have := s.sp.isLt; omega⟩ : Fin 16) = j := Fin.ext (by simp [h])
  unfold State.pop
  rw [dif_pos (by omega)]
  simp only [hj]

theorem State.getStack_set (s : State) (k : Nat) (hk : k < 16) (w : Word) (p : Fin 17) (j : Fin 16) :
    State.getStack { s with stack := s.stack.set k w hk, sp := p } j = if j.val = k then w else s.getStack j := by
  simp only [State.getStack, Vector.getElem_set, eq_comm]

/-! ## Memory -/

theorem State.memRead_inside (s : State) {a : Nat} (h : a < 4096) : s.memRead a = .ok (s.mem.read a) := if_pos h

theorem State.memRead_outside (s : State) {a : Nat} (h : 4096 ≤ a) :
    s.memRead a = .error (.memoryOutOfBounds a) := if_neg (by simp [h])

theorem State.memWrite_inside (s : State) {a : Nat} (b : Byte) (h : a < 4096) :
    s.memWrite a b = .ok { s with mem := s.mem.write a b } := if_pos h

theorem State.memWrite_outside (s : State) {a : Nat} (b : Byte) (h : 4096 ≤ a) :
    s.memWrite a b = .error (.memoryOutOfBounds a) := if_neg (by simp [h])

/-- The first address out of range of an ascending access that starts at `a` (20_memory.md R67). -/
def firstOutside (a : Nat) : Nat := if 4095 < a then a else 4096

theorem firstOutside_succ {a : Nat} (h : a < 4096) : firstOutside (a + 1) = firstOutside a := by
  unfold firstOutside; split <;> split <;> omega

theorem State.readBytes_inside (s : State) {a n : Nat} (h : n = 0 ∨ a + n ≤ 4096) :
    s.readBytes a n = .ok ((List.range n).map fun k => s.mem.read (a + k)) := by
  induction n generalizing a with
  | zero => rfl
  | succ n ih =>
    rw [State.readBytes, s.memRead_inside (by omega), ih (by omega), List.range_succ_eq_map]
    simp [Function.comp_def, Nat.add_assoc, Nat.add_comm 1]

theorem State.readBytes_outside (s : State) {a n : Nat} (hn : n ≠ 0) (h : 4096 < a + n) :
    s.readBytes a n = .error (.memoryOutOfBounds (firstOutside a)) := by
  induction n generalizing a with
  | zero => exact absurd rfl hn
  | succ n ih =>
    by_cases ha : a < 4096
    · rw [State.readBytes, s.memRead_inside ha, ih (by omega) (by omega), firstOutside_succ ha]
    · rw [State.readBytes, s.memRead_outside (by omega), firstOutside, if_pos (by omega)]

theorem State.storeBytes_inside (s : State) {a : Nat} (bs : List Byte) (h : a + bs.length ≤ 4096) :
    s.storeBytes a bs = .ok { s with mem := s.mem.writeBytes a bs } := by
  induction bs generalizing s a with
  | nil => rfl
  | cons b bs ih =>
    simp only [List.length_cons] at h
    rw [State.storeBytes, s.memWrite_inside b (by omega)]
    exact ih _ (by omega)

theorem State.storeBytes_outside (s : State) {a : Nat} (bs : List Byte) (hb : bs ≠ [])
    (h : 4096 < a + bs.length) : s.storeBytes a bs = .error (.memoryOutOfBounds (firstOutside a)) := by
  induction bs generalizing s a with
  | nil => exact absurd rfl hb
  | cons b bs ih =>
    simp only [List.length_cons] at h
    by_cases ha : a < 4096
    · rw [State.storeBytes, s.memWrite_inside b ha, ← firstOutside_succ ha]
      exact ih _ (by rintro rfl; simp at h; omega) (by omega)
    · rw [State.storeBytes, s.memWrite_outside b (by omega), firstOutside, if_pos (by omega)]

/-- Both bytes of the fetch exist: the word, big-endian (20_memory.md R55). -/
theorem State.fetch_inside (s : State) (h : s.pc.toNat + 1 < 4096) :
    s.fetch = .ok (wordOfBytes (s.mem.read s.pc.toNat) (s.mem.read (s.pc.toNat + 1))) := by
  simp only [State.fetch, s.memRead_inside (show s.pc.toNat < 4096 by omega), s.memRead_inside h]

theorem State.fetch_first_outside (s : State) (h : 4096 ≤ s.pc.toNat) :
    s.fetch = .error (.memoryOutOfBounds s.pc.toNat) := by
  simp only [State.fetch, s.memRead_outside h]

theorem State.fetch_second_outside (s : State) (h : s.pc.toNat = 4095) :
    s.fetch = .error (.memoryOutOfBounds 4096) := by
  simp only [State.fetch, h, s.memRead_inside (show 4095 < 4096 by omega),
    s.memRead_outside (show 4096 ≤ 4095 + 1 by omega)]

/-! ## Register blocks -/

theorem regBlock_vals (x : RegIdx) : (regBlock x).map Fin.val = List.range' 0 (x.val + 1) := by
  revert x; decide

theorem regBlock_length (x : RegIdx) : (regBlock x).length = x.val + 1 := by
  revert x; decide

theorem mem_regBlock (x r : RegIdx) : r ∈ regBlock x ↔ r ≤ x := by
  revert x r; decide

theorem regBlock_get (x : RegIdx) : ∀ r : RegIdx, r ≤ x → (regBlock x)[r.val]? = some r := by
  revert x; decide

/-- A store of consecutive registers is a store of their bytes. -/
theorem storeBlock_eq (rs : List RegIdx) (s : State) (k : Nat)
    (h : rs.map Fin.val = List.range' k rs.length) :
    storeBlock rs s = s.storeBytes (s.i.toNat + k) (rs.map s.getV) := by
  induction rs generalizing s k with
  | nil => rfl
  | cons r rs ih =>
    simp only [List.map_cons, List.length_cons, List.range'_succ, List.cons.injEq] at h
    obtain ⟨hr, hrs⟩ := h
    rw [storeBlock, List.map_cons, State.storeBytes, indexAddr, hr]
    by_cases ha : s.i.toNat + k < 4096
    · rw [s.memWrite_inside _ ha]
      exact ih { s with mem := s.mem.write (s.i.toNat + k) (s.getV r) } (k + 1) hrs
    · rw [s.memWrite_outside _ (by omega)]

/-- Fx55's loop. -/
theorem storeBlock_regBlock (x : RegIdx) (s : State) :
    storeBlock (regBlock x) s = s.storeBytes s.i.toNat ((regBlock x).map s.getV) := by
  rw [storeBlock_eq _ s 0 (by rw [regBlock_vals, regBlock_length])]
  simp

/-- A load of registers whose addresses all exist: each gets its byte, nothing but `V` changes. -/
theorem loadBlock_inside (rs : List RegIdx) (s : State) (h : ∀ r ∈ rs, s.i.toNat + r.val < 4096) :
    ∃ v', loadBlock rs s = .ok { s with v := v' } ∧
      ∀ r, State.getV { s with v := v' } r = if r ∈ rs then s.mem.read (s.i.toNat + r.val) else s.getV r := by
  induction rs generalizing s with
  | nil => exact ⟨s.v, rfl, by simp⟩
  | cons q rs ih =>
    have hq : s.i.toNat + q.val < 4096 := h q (by simp)
    obtain ⟨v', h1, h2⟩ := ih (s.setV q (s.mem.read (s.i.toNat + q.val))) fun r hr => h r (by simp [hr])
    refine ⟨v', ?_, fun r => ?_⟩
    · rw [loadBlock, indexAddr, s.memRead_inside hq]; exact h1
    · have := h2 r
      simp only [State.setV_mem, State.setV_i, State.getV_setV] at this
      refine Eq.trans this ?_
      by_cases hr : r ∈ rs <;> by_cases e : r = q <;> simp [hr, e]

/-- A load of consecutive registers that leaves memory reports the first address outside. -/
theorem loadBlock_outside (rs : List RegIdx) (s : State) (k : Nat) (hne : rs ≠ [])
    (hv : rs.map Fin.val = List.range' k rs.length) (h : 4096 < s.i.toNat + k + rs.length) :
    loadBlock rs s = .error (.memoryOutOfBounds (firstOutside (s.i.toNat + k))) := by
  induction rs generalizing s k with
  | nil => exact absurd rfl hne
  | cons r rs ih =>
    simp only [List.map_cons, List.length_cons, List.range'_succ, List.cons.injEq] at hv h
    obtain ⟨hr, hrs⟩ := hv
    rw [loadBlock, indexAddr, hr]
    by_cases ha : s.i.toNat + k < 4096
    · rw [s.memRead_inside ha, ← firstOutside_succ ha]
      exact ih (s.setV r _) (k + 1) (by rintro rfl; simp at h; omega) hrs (by simp; omega)
    · rw [s.memRead_outside (by omega), firstOutside, if_pos (by omega)]

/-! ## Keypad -/

/-- `LowestKeyDown()` answers a key exactly when it is down and no lower one is (45_keypad_timer.md R192). -/
theorem State.lowestKeyDown_eq_some (s : State) (k : KeyIdx) :
    s.lowestKeyDown = some k ↔ s.isDown k = true ∧ ∀ j, j < k → s.isDown j = false := by
  have key : ∀ p : KeyIdx → Bool, allKeys.find? p = some k ↔ p k = true ∧ ∀ j, j < k → p j = false := by
    intro p
    have hall : allKeys = List.finRange 16 := by decide
    rw [hall, List.find?_eq_some_iff_getElem]
    constructor
    · rintro ⟨hk, i, hi, hik, hlt⟩
      refine ⟨hk, fun j hj => ?_⟩
      have hik : (⟨i, by simpa using hi⟩ : Fin 16) = k := by simpa using hik
      have := hlt j.val (by rw [← hik] at hj; exact hj)
      simpa using this
    · rintro ⟨hk, hlt⟩
      refine ⟨hk, k.val, by simp, by simp, fun j hj => ?_⟩
      simpa using hlt ⟨j, by omega⟩ hj
  exact key s.isDown

theorem State.lowestKeyDown_eq_none (s : State) : s.lowestKeyDown = none ↔ ∀ k, s.isDown k = false := by
  have hall : ∀ k : KeyIdx, k ∈ allKeys := by decide
  simp only [State.lowestKeyDown, List.find?_eq_none, Bool.not_eq_true]
  exact ⟨fun h k => h k (hall k), fun h k _ => h k⟩

end Sys2Proof.Machine
end

