-- ==== Sys2Proof/Laws/Raster.lean ====
section
/-! SUPPORT. What one pixel operation does to each pixel, and what one plotted bit does, and what one
scanned row of a sprite does. -/

namespace Sys2Proof.Machine

@[simp] theorem pixel_clearFb (px : Fin 64) (py : Fin 32) : pixel clearFb px py = false := by
  simp [pixel, clearFb]

/-- A flip inverts its pixel and leaves every other one. -/
theorem pixel_flipPixel (f : Framebuffer) (px qx : Fin 64) (py qy : Fin 32) :
    pixel (flipPixel f px py) qx qy = if qx = px ∧ qy = py then !pixel f px py else pixel f qx qy := by
  simp only [pixel, flipPixel, Vector.getElem_set]
  by_cases hy : py.val = qy.val
  · obtain rfl : py = qy := Fin.ext hy
    simp only [if_true, BitVec.getLsbD_xor, BitVec.getLsbD_twoPow, px.isLt, decide_true, Bool.true_and]
    by_cases hx : px.val = qx.val
    · obtain rfl : px = qx := Fin.ext hx
      simp
    · have : ¬qx = px := fun e => hx (by rw [e])
      simp [hx, this]
  · have : ¬qy = py := fun e => hy (by rw [e])
    simp [hy, this]

/-- A plotted bit: its own pixel is XORed with the bit, every other one stays. -/
theorem Canvas.pixel_plot (k : Canvas) (bit : Bool) (px qx : Fin 64) (py qy : Fin 32) :
    pixel (k.plot bit px py).fb qx qy =
      if qx = px ∧ qy = py then (pixel k.fb px py ^^ bit) else pixel k.fb qx qy := by
  unfold Canvas.plot
  cases bit
  · by_cases h : qx = px ∧ qy = py
    · simp [h.1, h.2]
    · simp [h]
  · simp [pixel_flipPixel]

/-- A plotted bit collides when it is 1 and its pixel was. -/
theorem Canvas.collided_plot (k : Canvas) (bit : Bool) (px : Fin 64) (py : Fin 32) :
    (k.plot bit px py).collided = (k.collided || (bit && pixel k.fb px py)) := by
  unfold Canvas.plot
  cases bit <;> simp

/-! ## One row of a sprite -/

/-- Some listed column of a row carries a 1 bit and lands on the pixel. -/
def rowHits (ox oy : Byte) (r : Nat) (row : Byte) (cs : List Nat) (px : Fin 64) (py : Fin 32) : Prop :=
  ∃ c ∈ cs, row.getLsbD (7 - c) = true ∧ targetX ox c = px ∧ targetY oy r = py

/-- A scanned row inverts exactly the pixels it hits (44_display.md R172). -/
theorem Canvas.pixel_plotRow (ox oy : Byte) (r : Nat) (row : Byte) (px : Fin 64) (py : Fin 32) :
    ∀ (cs : List Nat) (k : Canvas), (cs.map (targetX ox)).Nodup →
    ((rowHits ox oy r row cs px py → pixel (Canvas.plotRow ox oy r row cs k).fb px py = !pixel k.fb px py) ∧
     (¬ rowHits ox oy r row cs px py → pixel (Canvas.plotRow ox oy r row cs k).fb px py = pixel k.fb px py)) := by
  intro cs
  induction cs with
  | nil => intro k _; simp [rowHits, Canvas.plotRow]
  | cons c cs ih =>
    intro k hn
    rw [List.map_cons, List.nodup_cons] at hn
    obtain ⟨hc, hn⟩ := hn
    have ih := ih (k.plot (row.getLsbD (7 - c)) (targetX ox c) (targetY oy r)) hn
    rw [Canvas.pixel_plot] at ih
    rw [Canvas.plotRow]
    by_cases hh : rowHits ox oy r row cs px py
    · have hne : ¬ (px = targetX ox c ∧ py = targetY oy r) := by
        rintro ⟨rfl, rfl⟩
        obtain ⟨c', hc', _, h2, _⟩ := hh
        exact hc (List.mem_map.mpr ⟨c', hc', h2⟩)
      have h1 := ih.1 hh
      rw [if_neg hne] at h1
      refine ⟨fun _ => h1, fun h => absurd ?_ h⟩
      obtain ⟨c', hc', h2⟩ := hh
      exact ⟨c', by simp [hc'], h2⟩
    · have h1 := ih.2 hh
      by_cases hp : px = targetX ox c ∧ py = targetY oy r
      · obtain ⟨rfl, rfl⟩ := hp
        rw [if_pos ⟨rfl, rfl⟩] at h1
        cases hb : row.getLsbD (7 - c)
        · rw [hb] at h1
          refine ⟨fun h => absurd ?_ hh, fun _ => by rw [h1]; simp⟩
          obtain ⟨c', hc', h2, h3⟩ := h
          rcases List.mem_cons.mp hc' with rfl | hc'
          · simp [hb] at h2
          · exact ⟨c', hc', h2, h3⟩
        · rw [hb] at h1
          refine ⟨fun _ => by rw [h1]; simp, fun h => absurd ⟨c, by simp, hb, rfl, rfl⟩ h⟩
      · rw [if_neg hp] at h1
        refine ⟨fun h => absurd ?_ hh, fun _ => h1⟩
        obtain ⟨c', hc', h2, h3, h4⟩ := h
        rcases List.mem_cons.mp hc' with rfl | hc'
        · exact absurd ⟨h3.symm, h4.symm⟩ hp
        · exact ⟨c', hc', h2, h3, h4⟩

/-- A scanned row collides when it hits a lit pixel (44_display.md R175). -/
theorem Canvas.collided_plotRow (ox oy : Byte) (r : Nat) (row : Byte) :
    ∀ (cs : List Nat) (k : Canvas), (cs.map (targetX ox)).Nodup →
    ((Canvas.plotRow ox oy r row cs k).collided = true ↔ k.collided = true ∨ ∃ px py, rowHits ox oy r row cs px py ∧ pixel k.fb px py = true) := by
  intro cs
  induction cs with
  | nil => intro k _; simp [rowHits, Canvas.plotRow]
  | cons c cs ih =>
    intro k hn
    rw [List.map_cons, List.nodup_cons] at hn
    obtain ⟨hc, hn⟩ := hn
    rw [Canvas.plotRow, ih _ hn, Canvas.collided_plot]
    simp only [Bool.or_eq_true, Bool.and_eq_true, Canvas.pixel_plot]
    constructor
    · rintro ((h | ⟨h1, h2⟩) | ⟨px, py, hh, h⟩)
      · exact .inl h
      · exact .inr ⟨_, _, ⟨c, by simp, h1, rfl, rfl⟩, h2⟩
      · refine .inr ⟨px, py, ?_, ?_⟩
        · obtain ⟨c', hc', h2⟩ := hh; exact ⟨c', by simp [hc'], h2⟩
        · rw [if_neg] at h
          · exact h
          · rintro ⟨rfl, rfl⟩
            obtain ⟨c', hc', _, h2, _⟩ := hh
            exact hc (List.mem_map.mpr ⟨c', hc', h2⟩)
    · rintro (h | ⟨px, py, hh, h⟩)
      · exact .inl (.inl h)
      · obtain ⟨c', hc', h1, h2, h3⟩ := hh
        rcases List.mem_cons.mp hc' with rfl | hc'
        · subst h2 h3; exact .inl (.inr ⟨h1, h⟩)
        · refine .inr ⟨px, py, ⟨c', hc', h1, h2, h3⟩, ?_⟩
          rw [if_neg]
          · exact h
          · rintro ⟨rfl, rfl⟩; exact hc (List.mem_map.mpr ⟨c', hc', h2⟩)

/-- The eight columns of a row land on different pixels (44_display.md R174). -/
theorem targetX_nodup (ox : Byte) : (([0,1,2,3,4,5,6,7] : List Nat).map (targetX ox)).Nodup := by
  revert ox; decide

end Sys2Proof.Machine
end

