-- ==== Sys2Proof/Laws/Exec.lean ====
section
/-! SUPPORT. What the meanings that may raise do, each in closed form, and one inversion lemma for the step. -/

namespace Sys2Proof.Machine

/-! ## Bodies that never raise -/

@[simp] theorem exec_cls (s : State) : exec .cls s = .next (s.setFb clearFb) := rfl
@[simp] theorem exec_jp (nnn : BitVec 12) (s : State) :
    exec (.jp nnn) s = .next (s.setPc (absTarget nnn)) :=
  rfl
@[simp] theorem exec_jpV0 (nnn : BitVec 12) (s : State) :
    exec (.jpV0 nnn) s = .next (s.setPc (offsetTarget s nnn)) :=
  rfl
@[simp] theorem exec_seImm (x : RegIdx) (kk : Byte) (s : State) :
    exec (.seImm x kk) s = .next (s.skipIf (s.getV x == kk)) :=
  rfl
@[simp] theorem exec_sneImm (x : RegIdx) (kk : Byte) (s : State) :
    exec (.sneImm x kk) s = .next (s.skipIf (s.getV x != kk)) :=
  rfl
@[simp] theorem exec_seReg (x y : RegIdx) (s : State) :
    exec (.seReg x y) s = .next (s.skipIf (s.getV x == s.getV y)) :=
  rfl
@[simp] theorem exec_sneReg (x y : RegIdx) (s : State) :
    exec (.sneReg x y) s = .next (s.skipIf (s.getV x != s.getV y)) :=
  rfl
@[simp] theorem exec_skp (k : KeyIdx) (s : State) : exec (.skp k) s = .next (s.skipIf (s.isDown k)) := rfl
@[simp] theorem exec_sknp (k : KeyIdx) (s : State) : exec (.sknp k) s = .next (s.skipIf (!s.isDown k)) := rfl
@[simp] theorem exec_ldImm (x : RegIdx) (kk : Byte) (s : State) :
    exec (.ldImm x kk) s = .next (s.setV x kk) :=
  rfl
@[simp] theorem exec_addImm (x : RegIdx) (kk : Byte) (s : State) :
    exec (.addImm x kk) s = .next (s.setV x (s.getV x + kk)) :=
  rfl
@[simp] theorem exec_ldReg (x y : RegIdx) (s : State) :
    exec (.ldReg x y) s = .next (s.setV x (s.getV y)) :=
  rfl
@[simp] theorem exec_orReg (x y : RegIdx) (s : State) :
    exec (.orReg x y) s = .next (s.setV x (s.getV x ||| s.getV y)) :=
  rfl
@[simp] theorem exec_andReg (x y : RegIdx) (s : State) :
    exec (.andReg x y) s = .next (s.setV x (s.getV x &&& s.getV y)) :=
  rfl
@[simp] theorem exec_xorReg (x y : RegIdx) (s : State) :
    exec (.xorReg x y) s = .next (s.setV x (s.getV x ^^^ s.getV y)) :=
  rfl
@[simp] theorem exec_addReg (x y : RegIdx) (s : State) :
    exec (.addReg x y) s = .next ((s.setV vF (carryFlag (s.getV x) (s.getV y))).setV x (s.getV x + s.getV y)) :=
  rfl
@[simp] theorem exec_shr (x y : RegIdx) (s : State) : exec (.shr x y) s = .next (shiftRight .vx x y s) := rfl
@[simp] theorem exec_shl (x y : RegIdx) (s : State) : exec (.shl x y) s = .next (shiftLeft .vx x y s) := rfl
@[simp] theorem exec_rnd (x : RegIdx) (kk : Byte) (s : State) :
    exec (.rnd x kk) s = .next (s.useRnd.setV x (s.nextRnd &&& kk)) :=
  rfl
@[simp] theorem exec_ldI (nnn : BitVec 12) (s : State) :
    exec (.ldI nnn) s = .next (s.setI (absTarget nnn)) :=
  rfl
@[simp] theorem exec_addI (x : RegIdx) (s : State) : exec (.addI x) s = .next (s.setI (indexSum s x)) := rfl
@[simp] theorem exec_ldFont (x : RegIdx) (s : State) :
    exec (.ldFont x) s = .next (s.setI (glyphAddr (s.getV x))) :=
  rfl
@[simp] theorem exec_ldVxDt (x : RegIdx) (s : State) : exec (.ldVxDt x) s = .next (s.setV x s.dt) := rfl
@[simp] theorem exec_ldDtVx (x : RegIdx) (s : State) : exec (.ldDtVx x) s = .next (s.setDt (s.getV x)) := rfl
@[simp] theorem exec_ldStVx (x : RegIdx) (s : State) : exec (.ldStVx x) s = .next (s.setSt (s.getV x)) := rfl

theorem exec_subReg (x y : RegIdx) (s : State) :
    exec (.subReg x y) s = .next ((s.setV vF (greaterFlag (s.getV x) (s.getV y))).setV x
      ((s.setV vF (greaterFlag (s.getV x) (s.getV y))).getV x -
        (s.setV vF (greaterFlag (s.getV x) (s.getV y))).getV y)) := rfl

theorem exec_subnReg (x y : RegIdx) (s : State) :
    exec (.subnReg x y) s = .next ((s.setV vF (lessFlag (s.getV x) (s.getV y))).setV x
      ((s.setV vF (lessFlag (s.getV x) (s.getV y))).getV y -
        (s.setV vF (lessFlag (s.getV x) (s.getV y))).getV x)) := rfl

theorem exec_ldVxKey_none (x : RegIdx) (s : State) (h : s.lowestKeyDown = none) :
    exec (.ldVxKey x) s = .next s.rewind := by
  simp [exec, execLdVxKey, h]

theorem exec_ldVxKey_some (x : RegIdx) (s : State) (k : KeyIdx) (h : s.lowestKeyDown = some k) :
    exec (.ldVxKey x) s = .next (s.setV x (BitVec.ofNat 8 k.val)) := by
  simp [exec, execLdVxKey, h]

/-! ## Bodies that may raise -/

theorem exec_ret_empty (s : State) (h : s.sp.val = 0) : exec .ret s = .fault .stackUnderflow := by
  simp [exec, execRet, s.pop_empty h, raise]

theorem exec_ret_pops (s : State) (j : Fin 16) (h : s.sp.val = j.val + 1) :
    exec .ret s = .next { s with sp := j.castSucc, pc := s.getStack j } := by
  simp [exec, execRet, s.pop_of_pos j h, State.setPc]

theorem exec_call_full (nnn : BitVec 12) (s : State) (h : s.sp.val = 16) :
    exec (.call nnn) s = .fault .stackOverflow := by
  simp [exec, execCall, s.push_full _ h, raise]

theorem exec_call_pushes (nnn : BitVec 12) (s : State) (h : s.sp.val < 16) :
    exec (.call nnn) s = .next { s with
      stack := s.stack.set s.sp.val s.pc h
      sp := ⟨s.sp.val + 1, Nat.succ_lt_succ h⟩
      pc := nnn.setWidth 16 } := by
  simp [exec, execCall, s.push_of_room _ h, State.setPc, absTarget]

theorem exec_ldBcd_inside (x : RegIdx) (s : State) (h : s.i.toNat + 2 < 4096) :
    exec (.ldBcd x) s = .next { s with mem := s.mem.writeBytes s.i.toNat (bcdDigits (s.getV x)) } := by
  simp only [exec, execLdBcd, indexAddr, Nat.add_zero]
  rw [s.storeBytes_inside _ (by simp [bcdDigits]; omega)]
  rfl

theorem exec_ldBcd_outside (x : RegIdx) (s : State) (h : 4096 ≤ s.i.toNat + 2) :
    exec (.ldBcd x) s = .fault (.memoryOutOfBounds (firstOutside s.i.toNat)) := by
  simp only [exec, execLdBcd, indexAddr, Nat.add_zero]
  rw [s.storeBytes_outside _ (by simp [bcdDigits]) (by simp [bcdDigits]; omega)]
  rfl

theorem exec_storeRegs_inside (x : RegIdx) (s : State) (h : s.i.toNat + x.val < 4096) :
    exec (.storeRegs x) s =
      .next { s with mem := s.mem.writeBytes s.i.toNat ((regBlock x).map s.getV) } := by
  simp only [exec, execStoreRegs]
  rw [storeBlock_regBlock, s.storeBytes_inside _ (by simp [regBlock_length]; omega)]
  rfl

theorem exec_storeRegs_outside (x : RegIdx) (s : State) (h : 4096 ≤ s.i.toNat + x.val) :
    exec (.storeRegs x) s = .fault (.memoryOutOfBounds (firstOutside s.i.toNat)) := by
  simp only [exec, execStoreRegs]
  rw [storeBlock_regBlock, s.storeBytes_outside _ _ (by simp [regBlock_length]; omega)]
  · rfl
  · intro e
    have := congrArg List.length e
    simp [regBlock_length] at this

theorem exec_loadRegs_inside (x : RegIdx) (s : State) (h : s.i.toNat + x.val < 4096) :
    ∃ v', exec (.loadRegs x) s = .next { s with v := v' } ∧
      ∀ r, State.getV { s with v := v' } r = if r ≤ x then s.mem.read (s.i.toNat + r.val) else s.getV r := by
  obtain ⟨v', h1, h2⟩ := loadBlock_inside (regBlock x) s fun r hr => by
    have : r.val ≤ x.val := (mem_regBlock x r).mp hr
    omega
  refine ⟨v', ?_, fun r => ?_⟩
  · simp only [exec, execLoadRegs, h1, settle]
  · rw [h2 r]; simp only [mem_regBlock]

theorem exec_loadRegs_outside (x : RegIdx) (s : State) (h : 4096 ≤ s.i.toNat + x.val) :
    exec (.loadRegs x) s = .fault (.memoryOutOfBounds (firstOutside s.i.toNat)) := by
  have := loadBlock_outside (regBlock x) s 0
    (by intro e; have := congrArg List.length e; simp [regBlock_length] at this)
    (by rw [regBlock_vals, regBlock_length]) (by rw [regBlock_length]; omega)
  simp only [exec, execLoadRegs, this, settle, raise, Nat.add_zero]

/-- The bytes Dxyn reads. -/
def spriteBytes (s : State) (n : Nat) : List Byte := (List.range n).map fun k => s.mem.read (s.i.toNat + k)

theorem exec_drw_inside (x y : RegIdx) (n : Nat) (s : State) (h : n = 0 ∨ s.i.toNat + n ≤ 4096) :
    exec (.drw x y n) s = .next (drawSprite x y (spriteBytes s n) (s.setV vF 0)) := by
  simp only [exec, execDrw, indexAddr, State.setV_i, Nat.add_zero]
  rw [State.readBytes_inside _ h]
  rfl

theorem exec_drw_outside (x y : RegIdx) (n : Nat) (s : State) (hn : n ≠ 0) (h : 4096 < s.i.toNat + n) :
    exec (.drw x y n) s = .fault (.memoryOutOfBounds (firstOutside s.i.toNat)) := by
  simp only [exec, execDrw, indexAddr, State.setV_i, Nat.add_zero]
  rw [State.readBytes_outside _ hn h]
  rfl

/-- A draw ends in the new framebuffer and VF. -/
theorem drawSprite_eq (x y : RegIdx) (sprite : List Byte) (s : State) :
    drawSprite x y sprite s =
      if (draw s.fb (s.getV x) (s.getV y) sprite).collided then
        (s.setFb (draw s.fb (s.getV x) (s.getV y) sprite).fb).setV vF 1
      else s.setFb (draw s.fb (s.getV x) (s.getV y) sprite).fb := rfl

/-! ## The step -/

theorem step_halted (s : State) (f : Fault) (h : s.fault = some f) : step s = .fault f := by
  simp [step, h, raise]

theorem step_runs (s : State) (i : Instr) (hf : s.fault = none) (hp : s.pc.toNat + 1 < 4096)
    (hd : decode (wordOfBytes (s.mem.read s.pc.toNat) (s.mem.read (s.pc.toNat + 1))) = .ok i) :
    step s = exec i s.advance := by
  simp [step, hf, s.fetch_inside hp, hd]

/-- Everything a step that answers a next state did: it was not halted, both bytes of the word exist, the
word is an instruction, and its body answered that state from the advanced `pc`. -/
theorem step_next_cases {s t : State} (h : step s = .next t) :
    s.fault = none ∧ s.pc.toNat + 1 < 4096 ∧
      ∃ i, decode (wordOfBytes (s.mem.read s.pc.toNat) (s.mem.read (s.pc.toNat + 1))) = .ok i ∧
        exec i s.advance = .next t := by
  cases hf : s.fault with
  | some f => rw [step_halted s f hf] at h; cases h
  | none =>
    by_cases hp : s.pc.toNat + 1 < 4096
    · refine ⟨rfl, hp, ?_⟩
      cases hd : decode (wordOfBytes (s.mem.read s.pc.toNat) (s.mem.read (s.pc.toNat + 1))) with
      | ok i => exact ⟨i, rfl, by rw [← step_runs s i hf hp hd]; exact h⟩
      | error e => simp [step, hf, s.fetch_inside hp, hd, raise] at h
    · exfalso
      by_cases hq : 4096 ≤ s.pc.toNat
      · simp [step, hf, s.fetch_first_outside hq, raise] at h
      · simp [step, hf, s.fetch_second_outside (show s.pc.toNat = 4095 by omega), raise] at h

end Sys2Proof.Machine
end

