-- ==== Sys2Proof/Laws/Frame.lean ====
section
/-! SUPPORT. Frames: what each basic update of the state may change, and how frames combine. -/

namespace Sys2Proof.Machine

theorem Element.same_refl (e : Element) (s : State) : e.same s s := by
  cases e <;> simp [Element.same]

theorem Element.same_trans {e : Element} {s t u : State} (h : e.same s t) (k : e.same t u) : e.same s u := by
  cases e <;> simp_all [Element.same]

theorem ChangesOnly.refl (p : Element → Prop) (s : State) : ChangesOnly p s s := fun e _ => e.same_refl s

theorem ChangesOnly.mono {p q : Element → Prop} {s t : State} (h : ChangesOnly p s t) (k : ∀ e, p e → q e) :
    ChangesOnly q s t := fun e he => h e fun hp => he (k e hp)

theorem ChangesOnly.trans {p : Element → Prop} {s t u : State} (h : ChangesOnly p s t) (k : ChangesOnly p t u) :
    ChangesOnly p s u := fun e he => Element.same_trans (h e he) (k e he)

theorem changesOnly_setV (s : State) (x : RegIdx) (b : Byte) :
    ChangesOnly (fun e => e = .v x) s (s.setV x b) := by
  intro e he
  cases e <;> simp_all [Element.same, State.getV_setV]

theorem changesOnly_setPc (s : State) (w : Word) : ChangesOnly (fun e => e = .pc) s (s.setPc w) := by
  intro e he
  cases e <;> simp_all [Element.same]

theorem changesOnly_setI (s : State) (w : Word) : ChangesOnly (fun e => e = .i) s (s.setI w) := by
  intro e he
  cases e <;> simp_all [Element.same]

theorem changesOnly_setDt (s : State) (b : Byte) : ChangesOnly (fun e => e = .dt) s (s.setDt b) := by
  intro e he
  cases e <;> simp_all [Element.same]

theorem changesOnly_setSt (s : State) (b : Byte) : ChangesOnly (fun e => e = .st) s (s.setSt b) := by
  intro e he
  cases e <;> simp_all [Element.same]

theorem changesOnly_setFb (s : State) (f : Framebuffer) :
    ChangesOnly (fun e => ∃ px py, e = .pixel px py) s (s.setFb f) := by
  intro e he
  cases e <;> simp_all [Element.same]

/-- Bytes stored from an address upward change only those bytes. -/
theorem changesOnly_writeBytes (s : State) (a : Nat) (bs : List Byte) :
    ChangesOnly (fun e => ∃ b, a ≤ b ∧ b < a + bs.length ∧ e = .mem b) s
      { s with mem := s.mem.writeBytes a bs } := by
  intro e he
  cases e
  case mem b =>
    refine Memory.read_writeBytes_outside bs s.mem a b ?_
    by_contra hb
    exact he ⟨b, by omega, by omega, rfl⟩
  case rnd => exact ⟨rfl, rfl⟩
  all_goals exact rfl

end Sys2Proof.Machine
end

