-- ==== Sys2Proof/Laws/HostOps.lean ====
section
/-! SUPPORT. What each operation of the interface answers, and one inversion lemma for all of them. -/

namespace Sys2Proof.Machine

@[simp] theorem Session.withCore_core (m : Session) (s : State) : (m.withCore s).core = s := rfl
@[simp] theorem Session.withCore_fresh (m : Session) (s : State) : (m.withCore s).fresh = m.fresh := rfl

/-! ## The step as an operation -/

theorem State.hostStep_halted (s rest : State) (b : Byte) {f : Fault} (h : s.fault = some f) :
    s.hostStep b rest = .ok (s, .faulted f) := by
  simp [State.hostStep, h]

theorem State.hostStep_next {s t : State} (rest : State) {b : Byte} (hf : s.fault = none)
    (h : step (s.offerRnd b) = .next t) : s.hostStep b rest = .ok (t.withRndOf s, .done) := by
  simp [State.hostStep, hf, h]

theorem State.hostStep_fault {s : State} (rest : State) {b : Byte} {f : Fault} (hf : s.fault = none)
    (h : step (s.offerRnd b) = .fault f) : s.hostStep b rest = .ok (s.latchFault f rest, .faulted f) := by
  simp [State.hostStep, hf, h]

/-- Everything a step that goes through as an operation did: nothing on a halted core, the step of the core, or
the latching of its fault. -/
theorem State.hostStep_cases {s t rest : State} {b : Byte} {r : Report} (h : s.hostStep b rest = .ok (t, r)) :
    (∃ f, s.fault = some f ∧ t = s ∧ r = .faulted f) ∨
    (s.fault = none ∧ ∃ u, step (s.offerRnd b) = .next u ∧ t = u.withRndOf s ∧ r = .done) ∨
    (s.fault = none ∧ ∃ f, step (s.offerRnd b) = .fault f ∧ t = s.latchFault f rest ∧ r = .faulted f) := by
  unfold State.hostStep at h
  split at h
  · rename_i f hf
    cases h
    exact .inl ⟨f, hf, rfl, rfl⟩
  · rename_i hf
    split at h
    · rename_i u hu
      cases h
      exact .inr (.inl ⟨hf, u, hu, rfl, rfl⟩)
    · rename_i f hu
      cases h
      exact .inr (.inr ⟨hf, f, hu, rfl, rfl⟩)
    · cases h

/-! ## The operations -/

theorem perform_step_of_hostStep {m : Session} {s rest : State} {b : Byte} {r : Report}
    (h : m.core.hostStep b rest = .ok (s, r)) : perform (.step b rest) m = .ok (⟨s, false⟩, r) := by
  simp [perform, performStep, h]

theorem perform_loadRom_in_time {m : Session} {bs : List Byte} (hm : m.fresh = true) (hb : bs.length ≤ 3584) :
    perform (.loadRom bs) m = .ok (m.withCore (m.core.loadRom bs), .done) := by
  have hb : bs.length ≤ Config.maxRomBytes := hb
  simp [perform, performLoadRom, hm, hb]

theorem perform_loadRom_too_long {m : Session} {bs : List Byte} (hm : m.fresh = true) (hb : 3584 < bs.length) :
    perform (.loadRom bs) m = .error (.romTooLong bs.length) := by
  have hb : ¬ bs.length ≤ Config.maxRomBytes := Nat.not_le.mpr hb
  simp [perform, performLoadRom, hm, hb]

theorem perform_loadRom_too_late {m : Session} (bs : List Byte) (hm : m.fresh = false) :
    perform (.loadRom bs) m = .error .romTooLate := by
  simp [perform, performLoadRom, hm]

/-- Everything an operation that goes through did. -/
theorem perform_cases {op : HostOp} {m t : Session} {r : Report} (h : perform op m = .ok (t, r)) :
    (op = .reset ∧ t = ⟨m.core.hostReset, true⟩) ∨
    (∃ bs, op = .loadRom bs ∧ m.fresh = true ∧ bs.length ≤ 3584 ∧ t = m.withCore (m.core.loadRom bs)) ∨
    (∃ b rest s, op = .step b rest ∧ m.core.hostStep b rest = .ok (s, r) ∧ t = ⟨s, false⟩) ∨
    (op = .tick ∧ t = m.withCore m.core.tick) ∨
    (∃ k, op = .keyPress k ∧ t = m.withCore (m.core.pressKey k)) ∨
    (op = .keyReleaseAll ∧ t = m.withCore m.core.releaseKeys) ∨
    ((op = .snapshot ∨ op = .readFault) ∧ t = m) := by
  cases op
  case reset => cases h; simp
  case loadRom bs =>
    simp only [perform, performLoadRom] at h
    split at h
    · rename_i hm
      split at h
      · rename_i hb
        cases h
        exact .inr (.inl ⟨bs, rfl, hm, hb, rfl⟩)
      · cases h
    · cases h
  case step b rest =>
    simp only [perform, performStep] at h
    split at h
    · rename_i s q hs
      cases h
      exact .inr (.inr (.inl ⟨b, rest, s, rfl, hs, rfl⟩))
    · cases h
  all_goals (cases h; simp)

end Sys2Proof.Machine
end

