-- ==== Sys2Proof/Laws/PerInstr.lean ====
section
/-! SUPPORT. Per instruction: its word matches the row of the opcode map that has its mnemonic
(30_encoding.md R85, R86). -/

namespace Sys2Proof.Laws.EncodeMatchesRow

/-- The encoding of a well-formed instruction has the literal bits of its own row. -/
def Statement (i : Instr) : Prop :=
  i.wellFormed = true → ∃ r ∈ opcodeTable, r.mnemonic = i.mnemonic ∧ r.matches (encode i) = true

theorem cls : Statement .cls := fun _ =>
  ⟨⟨"CLS", 0xFFFF, 0x00E0⟩, by simp [opcodeTable], rfl, (matches_FFFF _ _ _).mpr <| by
    rfl⟩

theorem ret : Statement .ret := fun _ =>
  ⟨⟨"RET", 0xFFFF, 0x00EE⟩, by simp [opcodeTable], rfl, (matches_FFFF _ _ _).mpr <| by
    rfl⟩

theorem jp (nnn : BitVec 12) : Statement (.jp nnn) := fun _ =>
  ⟨⟨"JP_nnn", 0xF000, 0x1000⟩, by simp [opcodeTable], rfl, (matches_F000 _ _ _).mpr <| by
    have := nnn.isLt
    rw [encode, encodeNNN_toNat _ _ (by decide)]
    change _ = 0x1000
    omega⟩

theorem call (nnn : BitVec 12) : Statement (.call nnn) := fun _ =>
  ⟨⟨"CALL_nnn", 0xF000, 0x2000⟩, by simp [opcodeTable], rfl, (matches_F000 _ _ _).mpr <| by
    have := nnn.isLt
    rw [encode, encodeNNN_toNat _ _ (by decide)]
    change _ = 0x2000
    omega⟩

theorem seImm (x : RegIdx) (kk : Byte) : Statement (.seImm x kk) := fun _ =>
  ⟨⟨"SE_Vx__kk", 0xF000, 0x3000⟩, by simp [opcodeTable], rfl, (matches_F000 _ _ _).mpr <| by
    have := kk.isLt
    have := x.isLt
    rw [encode, encodeXKK_toNat _ _ _ (by decide)]
    change _ = 0x3000
    omega⟩

theorem sneImm (x : RegIdx) (kk : Byte) : Statement (.sneImm x kk) := fun _ =>
  ⟨⟨"SNE_Vx__kk", 0xF000, 0x4000⟩, by simp [opcodeTable], rfl, (matches_F000 _ _ _).mpr <| by
    have := kk.isLt
    have := x.isLt
    rw [encode, encodeXKK_toNat _ _ _ (by decide)]
    change _ = 0x4000
    omega⟩

theorem seReg (x y : RegIdx) : Statement (.seReg x y) := fun _ =>
  ⟨⟨"SE_Vx__Vy", 0xF00F, 0x5000⟩, by simp [opcodeTable], rfl, (matches_F00F _ _ _).mpr <| by
    have := x.isLt
    have := y.isLt
    rw [encode, encodeXYN_toNat _ _ _ _ (by decide) (by omega)]
    change _ = 0x5000
    omega⟩

theorem ldImm (x : RegIdx) (kk : Byte) : Statement (.ldImm x kk) := fun _ =>
  ⟨⟨"LD_Vx__kk", 0xF000, 0x6000⟩, by simp [opcodeTable], rfl, (matches_F000 _ _ _).mpr <| by
    have := kk.isLt
    have := x.isLt
    rw [encode, encodeXKK_toNat _ _ _ (by decide)]
    change _ = 0x6000
    omega⟩

theorem addImm (x : RegIdx) (kk : Byte) : Statement (.addImm x kk) := fun _ =>
  ⟨⟨"ADD_Vx__kk", 0xF000, 0x7000⟩, by simp [opcodeTable], rfl, (matches_F000 _ _ _).mpr <| by
    have := kk.isLt
    have := x.isLt
    rw [encode, encodeXKK_toNat _ _ _ (by decide)]
    change _ = 0x7000
    omega⟩

theorem ldReg (x y : RegIdx) : Statement (.ldReg x y) := fun _ =>
  ⟨⟨"LD_Vx__Vy", 0xF00F, 0x8000⟩, by simp [opcodeTable], rfl, (matches_F00F _ _ _).mpr <| by
    have := x.isLt
    have := y.isLt
    rw [encode, encodeXYN_toNat _ _ _ _ (by decide) (by omega)]
    change _ = 0x8000
    omega⟩

theorem orReg (x y : RegIdx) : Statement (.orReg x y) := fun _ =>
  ⟨⟨"OR_Vx__Vy", 0xF00F, 0x8001⟩, by simp [opcodeTable], rfl, (matches_F00F _ _ _).mpr <| by
    have := x.isLt
    have := y.isLt
    rw [encode, encodeXYN_toNat _ _ _ _ (by decide) (by omega)]
    change _ = 0x8001
    omega⟩

theorem andReg (x y : RegIdx) : Statement (.andReg x y) := fun _ =>
  ⟨⟨"AND_Vx__Vy", 0xF00F, 0x8002⟩, by simp [opcodeTable], rfl, (matches_F00F _ _ _).mpr <| by
    have := x.isLt
    have := y.isLt
    rw [encode, encodeXYN_toNat _ _ _ _ (by decide) (by omega)]
    change _ = 0x8002
    omega⟩

theorem xorReg (x y : RegIdx) : Statement (.xorReg x y) := fun _ =>
  ⟨⟨"XOR_Vx__Vy", 0xF00F, 0x8003⟩, by simp [opcodeTable], rfl, (matches_F00F _ _ _).mpr <| by
    have := x.isLt
    have := y.isLt
    rw [encode, encodeXYN_toNat _ _ _ _ (by decide) (by omega)]
    change _ = 0x8003
    omega⟩

theorem addReg (x y : RegIdx) : Statement (.addReg x y) := fun _ =>
  ⟨⟨"ADD_Vx__Vy", 0xF00F, 0x8004⟩, by simp [opcodeTable], rfl, (matches_F00F _ _ _).mpr <| by
    have := x.isLt
    have := y.isLt
    rw [encode, encodeXYN_toNat _ _ _ _ (by decide) (by omega)]
    change _ = 0x8004
    omega⟩

theorem subReg (x y : RegIdx) : Statement (.subReg x y) := fun _ =>
  ⟨⟨"SUB_Vx__Vy", 0xF00F, 0x8005⟩, by simp [opcodeTable], rfl, (matches_F00F _ _ _).mpr <| by
    have := x.isLt
    have := y.isLt
    rw [encode, encodeXYN_toNat _ _ _ _ (by decide) (by omega)]
    change _ = 0x8005
    omega⟩

theorem shr (x y : RegIdx) : Statement (.shr x y) := fun _ =>
  ⟨⟨"SHR_Vx", 0xF00F, 0x8006⟩, by simp [opcodeTable], rfl, (matches_F00F _ _ _).mpr <| by
    have := x.isLt
    have := y.isLt
    rw [encode, encodeXYN_toNat _ _ _ _ (by decide) (by omega)]
    change _ = 0x8006
    omega⟩

theorem subnReg (x y : RegIdx) : Statement (.subnReg x y) := fun _ =>
  ⟨⟨"SUBN_Vx__Vy", 0xF00F, 0x8007⟩, by simp [opcodeTable], rfl, (matches_F00F _ _ _).mpr <| by
    have := x.isLt
    have := y.isLt
    rw [encode, encodeXYN_toNat _ _ _ _ (by decide) (by omega)]
    change _ = 0x8007
    omega⟩

theorem shl (x y : RegIdx) : Statement (.shl x y) := fun _ =>
  ⟨⟨"SHL_Vx", 0xF00F, 0x800E⟩, by simp [opcodeTable], rfl, (matches_F00F _ _ _).mpr <| by
    have := x.isLt
    have := y.isLt
    rw [encode, encodeXYN_toNat _ _ _ _ (by decide) (by omega)]
    change _ = 0x800E
    omega⟩

theorem sneReg (x y : RegIdx) : Statement (.sneReg x y) := fun _ =>
  ⟨⟨"SNE_Vx__Vy", 0xF00F, 0x9000⟩, by simp [opcodeTable], rfl, (matches_F00F _ _ _).mpr <| by
    have := x.isLt
    have := y.isLt
    rw [encode, encodeXYN_toNat _ _ _ _ (by decide) (by omega)]
    change _ = 0x9000
    omega⟩

theorem ldI (nnn : BitVec 12) : Statement (.ldI nnn) := fun _ =>
  ⟨⟨"LD_I__nnn", 0xF000, 0xA000⟩, by simp [opcodeTable], rfl, (matches_F000 _ _ _).mpr <| by
    have := nnn.isLt
    rw [encode, encodeNNN_toNat _ _ (by decide)]
    change _ = 0xA000
    omega⟩

theorem jpV0 (nnn : BitVec 12) : Statement (.jpV0 nnn) := fun _ =>
  ⟨⟨"JP_V0__nnn", 0xF000, 0xB000⟩, by simp [opcodeTable], rfl, (matches_F000 _ _ _).mpr <| by
    have := nnn.isLt
    rw [encode, encodeNNN_toNat _ _ (by decide)]
    change _ = 0xB000
    omega⟩

theorem rnd (x : RegIdx) (kk : Byte) : Statement (.rnd x kk) := fun _ =>
  ⟨⟨"RND_Vx__kk", 0xF000, 0xC000⟩, by simp [opcodeTable], rfl, (matches_F000 _ _ _).mpr <| by
    have := kk.isLt
    have := x.isLt
    rw [encode, encodeXKK_toNat _ _ _ (by decide)]
    change _ = 0xC000
    omega⟩

theorem drw (x y : RegIdx) (n : Nat) : Statement (.drw x y n) := fun h =>
  ⟨⟨"DRW_Vx__Vy__n", 0xF000, 0xD000⟩, by simp [opcodeTable], rfl, (matches_F000 _ _ _).mpr <| by
    have hn : n < 16 := by simpa [Instr.wellFormed] using h
    have := x.isLt
    have := y.isLt
    rw [encode, encodeXYN_toNat _ _ _ _ (by decide) (by omega)]
    change _ = 0xD000
    omega⟩

theorem skp (k : KeyIdx) : Statement (.skp k) := fun _ =>
  ⟨⟨"SKP_x", 0xF0FF, 0xE09E⟩, by simp [opcodeTable], rfl, (matches_F0FF _ _ _).mpr <| by
    have := k.isLt
    rw [encode, encodeX_toNat _ _ _ (by decide) (by decide)]
    change _ = 0xE09E
    omega⟩

theorem sknp (k : KeyIdx) : Statement (.sknp k) := fun _ =>
  ⟨⟨"SKNP_x", 0xF0FF, 0xE0A1⟩, by simp [opcodeTable], rfl, (matches_F0FF _ _ _).mpr <| by
    have := k.isLt
    rw [encode, encodeX_toNat _ _ _ (by decide) (by decide)]
    change _ = 0xE0A1
    omega⟩

theorem ldVxDt (x : RegIdx) : Statement (.ldVxDt x) := fun _ =>
  ⟨⟨"LD_Vx__DT", 0xF0FF, 0xF007⟩, by simp [opcodeTable], rfl, (matches_F0FF _ _ _).mpr <| by
    have := x.isLt
    rw [encode, encodeX_toNat _ _ _ (by decide) (by decide)]
    change _ = 0xF007
    omega⟩

theorem ldVxKey (x : RegIdx) : Statement (.ldVxKey x) := fun _ =>
  ⟨⟨"LD_Vx__K", 0xF0FF, 0xF00A⟩, by simp [opcodeTable], rfl, (matches_F0FF _ _ _).mpr <| by
    have := x.isLt
    rw [encode, encodeX_toNat _ _ _ (by decide) (by decide)]
    change _ = 0xF00A
    omega⟩

theorem ldDtVx (x : RegIdx) : Statement (.ldDtVx x) := fun _ =>
  ⟨⟨"LD_DT__Vx", 0xF0FF, 0xF015⟩, by simp [opcodeTable], rfl, (matches_F0FF _ _ _).mpr <| by
    have := x.isLt
    rw [encode, encodeX_toNat _ _ _ (by decide) (by decide)]
    change _ = 0xF015
    omega⟩

theorem ldStVx (x : RegIdx) : Statement (.ldStVx x) := fun _ =>
  ⟨⟨"LD_ST__Vx", 0xF0FF, 0xF018⟩, by simp [opcodeTable], rfl, (matches_F0FF _ _ _).mpr <| by
    have := x.isLt
    rw [encode, encodeX_toNat _ _ _ (by decide) (by decide)]
    change _ = 0xF018
    omega⟩

theorem addI (x : RegIdx) : Statement (.addI x) := fun _ =>
  ⟨⟨"ADD_I__Vx", 0xF0FF, 0xF01E⟩, by simp [opcodeTable], rfl, (matches_F0FF _ _ _).mpr <| by
    have := x.isLt
    rw [encode, encodeX_toNat _ _ _ (by decide) (by decide)]
    change _ = 0xF01E
    omega⟩

theorem ldFont (x : RegIdx) : Statement (.ldFont x) := fun _ =>
  ⟨⟨"LD_F__Vx", 0xF0FF, 0xF029⟩, by simp [opcodeTable], rfl, (matches_F0FF _ _ _).mpr <| by
    have := x.isLt
    rw [encode, encodeX_toNat _ _ _ (by decide) (by decide)]
    change _ = 0xF029
    omega⟩

theorem ldBcd (x : RegIdx) : Statement (.ldBcd x) := fun _ =>
  ⟨⟨"LD_B__Vx", 0xF0FF, 0xF033⟩, by simp [opcodeTable], rfl, (matches_F0FF _ _ _).mpr <| by
    have := x.isLt
    rw [encode, encodeX_toNat _ _ _ (by decide) (by decide)]
    change _ = 0xF033
    omega⟩

theorem storeRegs (x : RegIdx) : Statement (.storeRegs x) := fun _ =>
  ⟨⟨"LD__I___Vx", 0xF0FF, 0xF055⟩, by simp [opcodeTable], rfl, (matches_F0FF _ _ _).mpr <| by
    have := x.isLt
    rw [encode, encodeX_toNat _ _ _ (by decide) (by decide)]
    change _ = 0xF055
    omega⟩

theorem loadRegs (x : RegIdx) : Statement (.loadRegs x) := fun _ =>
  ⟨⟨"LD_Vx___I", 0xF0FF, 0xF065⟩, by simp [opcodeTable], rfl, (matches_F0FF _ _ _).mpr <| by
    have := x.isLt
    rw [encode, encodeX_toNat _ _ _ (by decide) (by decide)]
    change _ = 0xF065
    omega⟩

end Sys2Proof.Laws.EncodeMatchesRow
end

