-- ==== Sys2Proof/Tests/Slice0.lean ====
section
/-! SUPPORT. The model's own tests. Expected values come from the encodings of 30_encoding.md, the vectors of
95_test_vectors.md and the rules; each docstring names its source. Then one witness for the hypotheses of each
statement. -/

namespace Sys2Proof.Tests

open Sys2Proof Sys2Proof.Machine

/-! ## Helpers -/

/-- The outcome is a next state of which `p` holds. -/
def nextIs (r : Result) (p : State → Bool) : Bool :=
  match r with
  | .next t => p t
  | .fault _ => false
  | .refused _ => false

/-- The outcome is this fault. -/
def stopsWith (r : Result) (f : Fault) : Bool :=
  match r with
  | .next _ => false
  | .fault g => decide (g = f)
  | .refused _ => false

/-- The operation succeeds, with a state and a report of which `p` holds. -/
def okIs (r : Except Refusal (Session × Report)) (p : State → Report → Bool) : Bool :=
  match r with
  | .ok (t, q) => p t.core q
  | .error _ => false

/-- The operation is refused for this reason. -/
def refusedAs (r : Except Refusal (Session × Report)) (q : Refusal) : Bool :=
  match r with
  | .ok _ => false
  | .error e => decide (e = q)

/-- A core on which no step has been made since reset. -/
def fresh (s : State) : Session := ⟨s, true⟩

/-- A core that has stepped since reset. -/
def stepped (s : State) : Session := ⟨s, false⟩

/-- `V[0]`, `V[1]` and VF over reset. -/
def regs (a b f : Byte) : State := ((State.reset.setV 0 a).setV 1 b).setV vF f

/-- A word run as the first instruction. -/
def run (w : Nat) (s : State) : Result := step (s.withFetchWord 16 w)

/-- The state about to run a word at 0x200. -/
def at200 (w : Nat) : State := State.reset.withFetchWord 16 w

/-- Bytes in memory from an address, and `I` there. -/
def dataAt (s : State) (a : Nat) (bs : List Byte) : State :=
  { s with i := BitVec.ofNat 16 a, mem := s.mem.writeBytes a bs }

/-- `sp` set. -/
def depth (s : State) (n : Fin 17) : State := { s with sp := n }

/-- Lit pixels, as the columns of row `py`. -/
def litRow (t : State) (py : Fin 32) : List Nat :=
  ((List.finRange 64).filter fun px => pixel t.fb px py).map Fin.val

/-- Rows with a lit pixel. -/
def litRows (t : State) : List Nat := ((List.finRange 32).filter fun py => t.fb[py.val] != 0).map Fin.val

/-! ## Well-formedness -/

/-- Dxyn has four bits for `n` (30_encoding.md R81): 16 is no height. -/
theorem test_drw_height_16_refused :
    Instr.wellFormed (.drw 0 0 16) = false := by decide

/-- The largest height. -/
theorem test_drw_height_15_accepted :
    Instr.wellFormed (.drw 15 15 15) = true := by decide

/-! ## Decoding, from the encodings of 30_encoding.md R82, R86 -/

/-- 00E0 is 0000 0000 1110 0000. -/
theorem test_decode_cls : decode 0x00E0 = .ok (.cls) := by decide

/-- 00EE is 0000 0000 1110 1110. -/
theorem test_decode_ret : decode 0x00EE = .ok (.ret) := by decide

/-- 1ABC is 0001 1010 1011 1100. -/
theorem test_decode_jp : decode 0x1ABC = .ok (.jp 0xABC) := by decide

/-- 2300 is 0010 0011 0000 0000. -/
theorem test_decode_call : decode 0x2300 = .ok (.call 0x300) := by decide

/-- 3A02 is 0011 1010 0000 0010. -/
theorem test_decode_seImm : decode 0x3A02 = .ok (.seImm 10 0x02) := by decide

/-- 4B34 is 0100 1011 0011 0100. -/
theorem test_decode_sneImm : decode 0x4B34 = .ok (.sneImm 11 0x34) := by decide

/-- 5120 is 0101 0001 0010 0000. -/
theorem test_decode_seReg : decode 0x5120 = .ok (.seReg 1 2) := by decide

/-- 6A02 is 0110 1010 0000 0010. -/
theorem test_decode_ldImm : decode 0x6A02 = .ok (.ldImm 10 0x02) := by decide

/-- 7002 is 0111 0000 0000 0010. -/
theorem test_decode_addImm : decode 0x7002 = .ok (.addImm 0 0x02) := by decide

/-- 8120 is 1000 0001 0010 0000. -/
theorem test_decode_ldReg : decode 0x8120 = .ok (.ldReg 1 2) := by decide

/-- 8341 is 1000 0011 0100 0001. -/
theorem test_decode_orReg : decode 0x8341 = .ok (.orReg 3 4) := by decide

/-- 8562 is 1000 0101 0110 0010. -/
theorem test_decode_andReg : decode 0x8562 = .ok (.andReg 5 6) := by decide

/-- 8783 is 1000 0111 1000 0011. -/
theorem test_decode_xorReg : decode 0x8783 = .ok (.xorReg 7 8) := by decide

/-- 89A4 is 1000 1001 1010 0100. -/
theorem test_decode_addReg : decode 0x89A4 = .ok (.addReg 9 10) := by decide

/-- 8BC5 is 1000 1011 1100 0101. -/
theorem test_decode_subReg : decode 0x8BC5 = .ok (.subReg 11 12) := by decide

/-- 8DE6 is 1000 1101 1110 0110. -/
theorem test_decode_shr : decode 0x8DE6 = .ok (.shr 13 14) := by decide

/-- 8F07 is 1000 1111 0000 0111. -/
theorem test_decode_subnReg : decode 0x8F07 = .ok (.subnReg 15 0) := by decide

/-- 812E is 1000 0001 0010 1110. -/
theorem test_decode_shl : decode 0x812E = .ok (.shl 1 2) := by decide

/-- 9340 is 1001 0011 0100 0000. -/
theorem test_decode_sneReg : decode 0x9340 = .ok (.sneReg 3 4) := by decide

/-- A2F0 is 1010 0010 1111 0000. -/
theorem test_decode_ldI : decode 0xA2F0 = .ok (.ldI 0x2F0) := by decide

/-- B123 is 1011 0001 0010 0011. -/
theorem test_decode_jpV0 : decode 0xB123 = .ok (.jpV0 0x123) := by decide

/-- CE0F is 1100 1110 0000 1111. -/
theorem test_decode_rnd : decode 0xCE0F = .ok (.rnd 14 0x0F) := by decide

/-- D125 is 1101 0001 0010 0101. -/
theorem test_decode_drw : decode 0xD125 = .ok (.drw 1 2 5) := by decide

/-- E59E is 1110 0101 1001 1110. -/
theorem test_decode_skp : decode 0xE59E = .ok (.skp 5) := by decide

/-- E6A1 is 1110 0110 1010 0001. -/
theorem test_decode_sknp : decode 0xE6A1 = .ok (.sknp 6) := by decide

/-- F107 is 1111 0001 0000 0111. -/
theorem test_decode_ldVxDt : decode 0xF107 = .ok (.ldVxDt 1) := by decide

/-- F20A is 1111 0010 0000 1010. -/
theorem test_decode_ldVxKey : decode 0xF20A = .ok (.ldVxKey 2) := by decide

/-- F315 is 1111 0011 0001 0101. -/
theorem test_decode_ldDtVx : decode 0xF315 = .ok (.ldDtVx 3) := by decide

/-- F418 is 1111 0100 0001 1000. -/
theorem test_decode_ldStVx : decode 0xF418 = .ok (.ldStVx 4) := by decide

/-- F51E is 1111 0101 0001 1110. -/
theorem test_decode_addI : decode 0xF51E = .ok (.addI 5) := by decide

/-- F629 is 1111 0110 0010 1001. -/
theorem test_decode_ldFont : decode 0xF629 = .ok (.ldFont 6) := by decide

/-- F733 is 1111 0111 0011 0011. -/
theorem test_decode_ldBcd : decode 0xF733 = .ok (.ldBcd 7) := by decide

/-- F855 is 1111 1000 0101 0101. -/
theorem test_decode_storeRegs : decode 0xF855 = .ok (.storeRegs 8) := by decide

/-- F965 is 1111 1001 0110 0101. -/
theorem test_decode_loadRegs : decode 0xF965 = .ok (.loadRegs 9) := by decide

/-- 20_memory.md R55: the left pair of digits lies at the lower address. -/
theorem test_decode_bytes_high_first :
    decodeBytes [0x6A, 0x02, 0xFF] = .ok (.ldImm 10 0x02, [0xFF]) := by decide

/-- V-FAULT-3, V-SKIP-12, V-SKIP-13. -/
theorem test_decode_illegal_words :
    [0x0000, 0x00E1, 0x00EF, 0x0123, 0x5011, 0x9011, 0x8018, 0x801F].all
      (fun w => decide (decode w = .error (.invalidOpcode w))) = true := by decide

/-- V-FAULT-3. -/
theorem test_decode_illegal_low_bytes :
    [0xE09F, 0xE0A0, 0xF000, 0xF075, 0xFFFF].all
      (fun w => decide (decode w = .error (.invalidOpcode w))) = true := by decide

/-- The host's numbering of a table word. -/
theorem test_table_word :
    decodeTableWord 16 0xD125 = some (.drw 1 2 5) := by decide

/-- A placed word runs at the next step (S2). -/
theorem test_fetch_word_runs :
    nextIs (step (State.reset.withFetchWord 16 0x6A02)) (fun t => t.getV 10 == 0x02 && t.pc == 0x202) = true :=
      by decide

/-! ## Flow -/

/-- V-FLOW-1. -/
theorem test_jp :
    nextIs (run 0x1ABC State.reset) (fun t => t.pc == 0xABC) = true := by decide

/-- V-FLOW-3. -/
theorem test_call :
    nextIs (run 0x2300 State.reset) (fun t => t.getStack 0 == 0x202 && t.sp == 1 && t.pc == 0x300) = true :=
      by decide

/-- V-FLOW-7. -/
theorem test_call_sixteenth_entry :
    nextIs (run 0x2ABC (depth State.reset 15)) (fun t => t.getStack 15 == 0x202 && t.sp == 16 &&
      t.pc == 0xABC) = true := by decide

/-- V-FLOW-4. -/
theorem test_ret :
    nextIs (run 0x00EE { State.reset with sp := 1, stack := State.reset.stack.set 0 0x202 })
      (fun t => t.pc == 0x202 && t.sp == 0 && t.getStack 0 == 0x202) = true := by decide

/-- V-FLOW-9. -/
theorem test_ret_underflow :
    stopsWith (run 0x00EE State.reset) .stackUnderflow = true := by decide

/-- V-FLOW-5. -/
theorem test_jpV0 :
    nextIs (run 0xB300 (regs 0x12 0 0)) (fun t => t.pc == 0x312) = true := by decide

/-- V-FLOW-6. -/
theorem test_jpV0_past_memory :
    nextIs (run 0xBFFF (regs 0xFF 0 0)) (fun t => t.pc == 0x10FE) = true := by decide

/-! ## Skips -/

/-- V-SKIP-1. -/
theorem test_seImm_taken :
    nextIs (run 0x3042 (regs 0x42 0 0)) (fun t => t.pc == 0x204) = true := by decide

/-- V-SKIP-2. -/
theorem test_seImm_not :
    nextIs (run 0x3042 (regs 0x41 0 0)) (fun t => t.pc == 0x202) = true := by decide

/-- V-SKIP-3. -/
theorem test_sneImm_not :
    nextIs (run 0x4042 (regs 0x42 0 0)) (fun t => t.pc == 0x202) = true := by decide

/-- V-SKIP-4. -/
theorem test_sneImm_taken :
    nextIs (run 0x4042 (regs 0x41 0 0)) (fun t => t.pc == 0x204) = true := by decide

/-- V-SKIP-5. -/
theorem test_seReg_taken :
    nextIs (run 0x5010 (regs 7 7 0)) (fun t => t.pc == 0x204) = true := by decide

/-- V-SKIP-6. -/
theorem test_seReg_not :
    nextIs (run 0x5010 (regs 7 8 0)) (fun t => t.pc == 0x202) = true := by decide

/-- V-SKIP-7. -/
theorem test_sneReg_not :
    nextIs (run 0x9010 (regs 7 7 0)) (fun t => t.pc == 0x202) = true := by decide

/-- V-SKIP-8. -/
theorem test_sneReg_taken :
    nextIs (run 0x9010 (regs 7 8 0)) (fun t => t.pc == 0x204) = true := by decide

/-- V-KEY-1: the field names the key. -/
theorem test_skp :
    nextIs (run 0xE59E ((State.reset.setV 5 9).pressKey 5)) (fun t => t.pc == 0x204) = true := by decide

/-- V-KEY-2. -/
theorem test_skp_not :
    nextIs (run 0xE59E ((State.reset.setV 5 9).pressKey 9)) (fun t => t.pc == 0x202) = true := by decide

/-- V-KEY-3. -/
theorem test_sknp :
    nextIs (run 0xE5A1 State.reset) (fun t => t.pc == 0x204) = true := by decide

/-- V-KEY-3. -/
theorem test_sknp_not :
    nextIs (run 0xE5A1 (State.reset.pressKey 5)) (fun t => t.pc == 0x202) = true := by decide

/-! ## Registers -/

/-- V-ALU-2. -/
theorem test_ldImm_vF :
    nextIs (run 0x6FFF (regs 0 0 0)) (fun t => t.getV vF == 0xFF) = true := by decide

/-- V-ALU-3. -/
theorem test_addImm_wraps :
    nextIs (run 0x7002 (regs 0xFF 0x00 0x55)) (fun t => t.getV 0 == 0x01 && t.getV 1 == 0x00 &&
      t.getV vF == 0x55) = true := by decide

/-- V-ALU-5. -/
theorem test_addImm_vF :
    nextIs (run 0x7F01 (regs 0x00 0x00 0xFF)) (fun t => t.getV 0 == 0x00 && t.getV 1 == 0x00 &&
      t.getV vF == 0x00) = true := by decide

/-- V-ALU-6. -/
theorem test_ldReg :
    nextIs (run 0x8010 (regs 0x11 0x22 0x09)) (fun t => t.getV 0 == 0x22 && t.getV 1 == 0x22 &&
      t.getV vF == 0x09) = true := by decide

/-- V-ALU-7. -/
theorem test_orReg :
    nextIs (run 0x8011 (regs 0xF0 0x0F 0x09)) (fun t => t.getV 0 == 0xFF && t.getV 1 == 0x0F &&
      t.getV vF == 0x09) = true := by decide

/-- V-ALU-8. -/
theorem test_andReg :
    nextIs (run 0x8012 (regs 0xF0 0x3C 0x09)) (fun t => t.getV 0 == 0x30 && t.getV 1 == 0x3C &&
      t.getV vF == 0x09) = true := by decide

/-- V-ALU-9. -/
theorem test_xorReg :
    nextIs (run 0x8013 (regs 0xF0 0x3C 0x09)) (fun t => t.getV 0 == 0xCC && t.getV 1 == 0x3C &&
      t.getV vF == 0x09) = true := by decide

/-- V-ALU-15, VF in 1. -/
theorem test_addReg_sum_255 :
    nextIs (run 0x8014 (regs 0xFF 0x00 0x01)) (fun t => t.getV 0 == 0xFF && t.getV 1 == 0x00 &&
      t.getV vF == 0x00) = true := by decide

/-- V-ALU-17: the carry is lost. -/
theorem test_addReg_vF_target :
    nextIs (run 0x8F14 (regs 0x00 0x03 0xFF)) (fun t => t.getV 0 == 0x00 && t.getV 1 == 0x03 &&
      t.getV vF == 0x02) = true := by decide

/-- V-ALU-23. -/
theorem test_subReg_vF_source :
    nextIs (run 0x80F5 (regs 0x05 0x00 0x03)) (fun t => t.getV 0 == 0x04 && t.getV 1 == 0x00 &&
      t.getV vF == 0x01) = true := by decide

/-- V-ALU-21: the strict test. -/
theorem test_subReg_equal :
    nextIs (run 0x8015 (regs 0x05 0x05 0x01)) (fun t => t.getV 0 == 0x00 && t.getV 1 == 0x05 &&
      t.getV vF == 0x00) = true := by decide

/-- V-ALU-26. -/
theorem test_shr_ignores_y :
    nextIs (run 0x8016 (regs 0x05 0x77 0x00)) (fun t => t.getV 0 == 0x02 && t.getV 1 == 0x77 &&
      t.getV vF == 0x01) = true := by decide

/-- V-ALU-30. -/
theorem test_shr_vF :
    nextIs (run 0x8F06 (regs 0x00 0x00 0x03)) (fun t => t.getV 0 == 0x00 && t.getV 1 == 0x00 &&
      t.getV vF == 0x00) = true := by decide

/-- V-ALU-34. -/
theorem test_subnReg_vF_source :
    nextIs (run 0x80F7 (regs 0x02 0x00 0x09)) (fun t => t.getV 0 == 0xFF && t.getV 1 == 0x00 &&
      t.getV vF == 0x01) = true := by decide

/-- V-ALU-35. -/
theorem test_subnReg_vF_target :
    nextIs (run 0x8F17 (regs 0x00 0x09 0x02)) (fun t => t.getV 0 == 0x00 && t.getV 1 == 0x09 &&
      t.getV vF == 0x08) = true := by decide

/-- V-ALU-36. -/
theorem test_shl :
    nextIs (run 0x801E (regs 0x81 0x00 0x00)) (fun t => t.getV 0 == 0x02 && t.getV 1 == 0x00 &&
      t.getV vF == 0x01) = true := by decide

/-- V-ALU-39. -/
theorem test_shl_vF :
    nextIs (run 0x8F0E (regs 0x00 0x00 0x80)) (fun t => t.getV 0 == 0x00 && t.getV 1 == 0x00 &&
      t.getV vF == 0x02) = true := by decide

/-- V-ALU-41. -/
theorem test_rnd_masks :
    nextIs (run 0xC00F (State.reset.offerRnd 0xA7)) (fun t => t.getV 0 == 0x07) = true := by decide

/-- V-ALU-42. -/
theorem test_rnd_255 :
    okIs (perform (.step 0xFF State.reset) (fresh (at200 0xC0FF))) (fun t q => t.getV 0 == 0xFF &&
      q == .done) = true := by decide

/-! ## Index register and memory -/

/-- V-IDX-1. -/
theorem test_ldI :
    nextIs (run 0xAFFF State.reset) (fun t => t.i == 0x0FFF) = true := by decide

/-- V-IDX-3. -/
theorem test_addI_past_memory :
    nextIs (run 0xFF1E ((regs 0 0 1).setI 0x0FFF)) (fun t => t.i == 0x1000 && t.getV vF == 1) = true :=
      by decide

/-- V-IDX-4. -/
theorem test_addI_wraps :
    nextIs (run 0xF01E ((regs 2 0 0).setI 0xFFFF)) (fun t => t.i == 0x0001) = true := by decide

/-- V-IDX-5. -/
theorem test_ldFont :
    nextIs (run 0xF529 (State.reset.setV 5 0x0A)) (fun t => t.i == 0x32) = true := by decide

/-- V-IDX-6. -/
theorem test_ldFont_unmasked :
    nextIs (run 0xF529 (State.reset.setV 5 0xFF)) (fun t => t.i == 0x4FB) = true := by decide

/-- V-IDX-7. -/
theorem test_ldBcd :
    nextIs (run 0xF033 ((regs 0xEA 0 0).setI 0x300)) (fun t => t.mem.read 0x300 == 2 &&
      t.mem.read 0x301 == 3 && t.mem.read 0x302 == 4 && t.i == 0x300) = true := by decide

/-- V-IDX-10. -/
theorem test_ldBcd_outside :
    stopsWith (run 0xF033 ((regs 0xFF 0 0).setI 0xFFE)) (.memoryOutOfBounds 0x1000) = true := by decide

/-- V-IDX-11, two registers. -/
theorem test_storeRegs :
    nextIs (run 0xF155 ((regs 0x11 0x22 0).setI 0x400)) (fun t => t.mem.read 0x400 == 0x11 &&
      t.mem.read 0x401 == 0x22 && t.mem.read 0x402 == 0 && t.i == 0x400) = true := by decide

/-- V-IDX-13. -/
theorem test_storeRegs_outside :
    stopsWith (run 0xFF55 (State.reset.setI 0xFF1)) (.memoryOutOfBounds 0x1000) = true := by decide

/-- V-IDX-14, two registers. -/
theorem test_loadRegs :
    nextIs (run 0xF165 (dataAt ((regs 0 0 0).setV 2 0x99) 0x400 [0xAA, 0xBB, 0xCC]))
      (fun t => t.getV 0 == 0xAA && t.getV 1 == 0xBB && t.getV 2 == 0x99) = true := by decide

/-- V-IDX-17, step 4. -/
theorem test_loadRegs_outside :
    stopsWith (run 0xF065 (State.reset.setI 0x1000)) (.memoryOutOfBounds 0x1000) = true := by decide

/-! ## Display -/

/-- V-DISP-2, S1. -/
theorem test_cls :
    nextIs (run 0x00E0 { State.reset with fb := Vector.replicate 32 0xFF })
      (fun t => litRows t == []) = true := by decide

/-- V-DISP-3, S7. -/
theorem test_drw_wraps :
    nextIs (run 0xD015 (dataAt (regs 0x3C 0x1E 1) 0x300 [0xFF, 0xFF, 0xFF, 0xFF, 0xFF]))
      (fun t => litRows t == [0, 1, 2, 30, 31] && litRow t 31 == [0, 1, 2, 3, 60, 61, 62, 63] &&
      t.getV vF == 0) = true := by decide

/-- V-DISP-6. -/
theorem test_drw_collides :
    nextIs (run 0xD011 (dataAt { regs 0 0 0 with fb := flipPixel clearFb 0 0 } 0x300 [0xC0]))
      (fun t => litRow t 0 == [1] && t.getV vF == 1) = true := by decide

/-! ## Keypad and timers -/

/-- V-KEY-4. -/
theorem test_ldVxKey_spins :
    nextIs (run 0xF10A State.reset) (fun t => t.pc == 0x200 && t.getV 1 == 0) = true := by decide

/-- V-KEY-6. -/
theorem test_ldVxKey_lowest :
    nextIs (run 0xF10A ((State.reset.pressKey 12).pressKey 3)) (fun t => t.pc == 0x202 &&
      t.getV 1 == 3) = true := by decide

/-- V-TMR-2. -/
theorem test_ldVxDt :
    nextIs (run 0xF207 (State.reset.setDt 6)) (fun t => t.getV 2 == 6 && t.dt == 6) = true := by decide

/-- V-TMR-1. -/
theorem test_ldDtVx :
    nextIs (run 0xF115 (regs 0 7 0)) (fun t => t.dt == 7 && t.st == 0) = true := by decide

/-- V-TMR-3. -/
theorem test_ldStVx :
    nextIs (run 0xF318 (State.reset.setV 3 2)) (fun t => t.st == 2 && t.dt == 0) = true := by decide

/-- V-TMR-4, first tick. -/
theorem test_tick :
    okIs (perform .tick (stepped { State.reset with dt := 1, st := 2 })) (fun t q => t.dt == 0 && t.st == 1 &&
      q == .beep true) = true := by decide

/-- V-TMR-5. -/
theorem test_tick_at_zero :
    okIs (perform .tick Session.start) (fun t q => t.dt == 0 && t.st == 0 && q == .beep false) = true :=
      by decide

/-! ## Faults and the host -/

/-- V-FAULT-2. -/
theorem test_empty_rom :
    stopsWith (step State.reset) (.invalidOpcode 0x0000) = true := by decide

/-- V-FAULT-4, step 2. -/
theorem test_fetch_second_byte :
    stopsWith (step (State.reset.setPc 0xFFF)) (.memoryOutOfBounds 0x1000) = true := by decide

/-- V-FAULT-3, R205. -/
theorem test_fault_latches :
    okIs (perform (.step 0 (regs 1 2 3)) (fresh (at200 0x8018)))
      (fun t q => t.fault == some (.invalidOpcode 0x8018) && q == .faulted (.invalidOpcode 0x8018) &&
      t.faultKind == 1 && t.faultInfo == 0x8018) = true := by decide

/-- 60_exceptions.md R215. -/
theorem test_load_rom :
    okIs (perform (.loadRom [0x6A, 0x02]) Session.start) (fun t _ => t.mem.read 0x200 == 0x6A &&
      t.mem.read 0x201 == 0x02) = true := by decide

/-- 60_exceptions.md R216 (b), U8. -/
theorem test_load_rom_too_late :
    refusedAs (perform (.loadRom [0x6A, 0x02]) (stepped State.reset)) .romTooLate = true := by decide

/-! ## Witnesses: the hypotheses of each statement can be met -/

/-- A well-formed instruction, its fields at their top values. -/
theorem witness_DecodeEncodeRoundTrip :
    Instr.wellFormed (.drw 15 15 15) = true := by decide

/-- A word that decodes. -/
theorem witness_EncodeDecodeRoundTrip :
    decode 0xDFFF = .ok (.drw 15 15 15) := by decide

/-- Both directions. -/
theorem witness_DecodeAgreesWithOpcodeTable :
    decode 0x5120 = .ok (.seReg 1 2) ∧ (∃ r ∈ opcodeTable, r.matches 0x5120 = true) := by decide

/-- A word with a row. -/
theorem witness_NoWordMatchesTwoRows :
    ∃ r ∈ opcodeTable, ∃ q ∈ opcodeTable, r.matches 0x00EE = true ∧ q.matches 0x00EE = true := by decide

/-- A fetched word of no row. -/
theorem witness_UnmatchedWordRaisesInvalidOpcode :
    (at200 0x0001).fault = none ∧ (at200 0x0001).fetch = .ok 0x0001 ∧
      ∀ r ∈ opcodeTable, r.matches 0x0001 = false := ⟨rfl, rfl, by decide⟩

/-- A fetched word of a row. -/
theorem witness_UnmatchedWordRaisesInvalidOpcode_matched :
    (at200 0x6A02).fault = none ∧ (at200 0x6A02).fetch = .ok 0x6A02 ∧
      ∃ r ∈ opcodeTable, r.matches 0x6A02 = true := ⟨rfl, rfl, by decide⟩

/-- A halted core. -/
theorem witness_StepFollowsTheStepAlgorithm_halted :
    ({ State.reset with fault := some .stackOverflow } : State).fault = some .stackOverflow := by decide

/-- The lowest `pc` past memory. -/
theorem witness_StepFollowsTheStepAlgorithm_outside :
    (State.reset.setPc 0x1000).fault = none ∧ 0xFFF < (State.reset.setPc 0x1000).pc.toNat := by decide

/-- The last byte of memory. -/
theorem witness_StepFollowsTheStepAlgorithm_last_byte :
    (State.reset.setPc 0xFFF).fault = none ∧ (State.reset.setPc 0xFFF).pc.toNat = 0xFFF := by decide

/-- The highest `pc` with a whole word. -/
theorem witness_StepFollowsTheStepAlgorithm_inside :
    let s := (State.reset.setPc 0xFFE).withFetchWord 16 0x6A02
    s.fault = none ∧ s.pc.toNat < 0xFFF ∧
      (0x6A02 : Word).toNat = 256 * (s.mem.read s.pc.toNat).toNat + (s.mem.read (s.pc.toNat + 1)).toNat ∧
      decode 0x6A02 = .ok (.ldImm 10 2) := by decide

/-- The same with a word of no row. -/
theorem witness_StepFollowsTheStepAlgorithm_illegal :
    let s := (State.reset.setPc 0xFFE).withFetchWord 16 0x0001
    s.fault = none ∧ s.pc.toNat < 0xFFF ∧
      (0x0001 : Word).toNat = 256 * (s.mem.read s.pc.toNat).toNat + (s.mem.read (s.pc.toNat + 1)).toNat ∧
      decode 0x0001 = .error (.invalidOpcode 0x0001) := by decide

/-- Each kind of fault. -/
theorem witness_FaultKindOfEachInstruction :
    stopsWith (exec .ret State.reset) .stackUnderflow = true ∧
      stopsWith (exec (.call 0) (depth State.reset 16)) .stackOverflow = true ∧
      stopsWith (exec (.drw 0 0 1) (State.reset.setI 0xFFFF)) (.memoryOutOfBounds 0xFFFF) = true := by decide

/-- A taken skip. -/
theorem witness_PcAfterEachStep :
    (at200 0x3000).about (.seImm 0 0) ∧ nextIs (step (at200 0x3000))
      (fun t => t.pc == pcAfter (.seImm 0 0) (at200 0x3000)) = true :=
      ⟨⟨by decide, by decide, by decide⟩, by decide⟩

/-- A return from the deepest nesting. -/
theorem witness_PcAfterEachStep_ret :
    (depth (at200 0x00EE) 16).about .ret ∧ nextIs (step (depth (at200 0x00EE) 16))
      (fun t => t.pc == pcAfter .ret (depth (at200 0x00EE) 16)) = true :=
      ⟨⟨by decide, by decide, by decide⟩, by decide⟩

/-- Both ends of the range. -/
theorem witness_ReportedAddressesAreInRange :
    stopsWith (step (State.reset.setPc 0xFFFF)) (.memoryOutOfBounds 0xFFFF) = true ∧
      stopsWith (step (State.reset.setPc 0xFFF)) (.memoryOutOfBounds 0x1000) = true := by decide

/-- A core at a self-jump (V-FLOW-2). -/
theorem witness_JumpSetsPc :
    (at200 0x1200).about (.jp 0x200) ∧ (at200 0x1200).pc.toNat = (0x200 : BitVec 12).toNat :=
      ⟨⟨by decide, by decide, by decide⟩, by decide⟩

/-- The first sum past memory, and its last byte. -/
theorem witness_JumpWithOffsetAddsV0 :
    (regs 0xFF 0 0).fault = none ∧ 0xFFF < (0xF01 : BitVec 12).toNat + ((regs 0xFF 0 0).getV 0).toNat ∧
      (0xF00 : BitVec 12).toNat + ((regs 0xFF 0 0).getV 0).toNat = 0xFFF := by decide

/-- An empty stack, one free entry, a full one. -/
theorem witness_CallPushesReturnAddress :
    (depth State.reset 0).sp.val = (0 : Fin 16).val ∧ (depth State.reset 15).sp.val = (15 : Fin 16).val ∧
      (depth State.reset 16).sp.val = 16 := by decide

/-- A full stack, one entry, an empty one. -/
theorem witness_ReturnPopsAddress :
    (depth State.reset 16).sp.val = (15 : Fin 16).val + 1 ∧
      (depth State.reset 1).sp.val = (0 : Fin 16).val + 1 ∧ (depth State.reset 0).sp.val = 0 := by decide

/-- Sixteen calls, and one more. -/
theorem witness_NestedCallsReturnInReverse :
    (depth State.reset 0).sp.val + (List.replicate 16 (0x300 : BitVec 12)).length ≤ 16 ∧
      16 < (depth State.reset 0).sp.val + (List.replicate 17 (0x300 : BitVec 12)).length := by decide

/-- A jump to itself at 0x200 (V-FLOW-2). -/
theorem witness_SelfJumpIsAFixedPoint :
    (at200 0x1200).atSelfJump := ⟨0x200, ⟨by decide, by decide, by decide⟩, by decide⟩

/-- A key down, a key up. -/
theorem witness_KeySkips :
    (State.reset.pressKey 15).isDown 15 = true ∧ State.reset.isDown 15 = false := by decide

/-- The cases of AddWithCarry, SubtractWithStrictFlag, ReverseSubtractWithStrictFlag, ShiftRightHalves,
ShiftLeftDoubles and ShiftBodiesWithVySource. -/
theorem witness_flags_fields :
    (0 : RegIdx) ≠ vF ∧ (14 : RegIdx) ≠ vF ∧ (15 : RegIdx) = vF := by decide

/-- A named value and none. -/
theorem witness_RandomByteIsMaskedAndUsed :
    (State.reset.offerRnd 255).rndIn = 255 :: [] ∧ State.reset.rndIn = [] := by decide

/-- A core about to execute Cxkk. -/
theorem witness_StepReadsItsRandomInput :
    (fresh (at200 0xC0FF)).core.about (.rnd 0 0xFF) := ⟨by decide, by decide, by decide⟩

/-- Another instruction, a word of no row, a `pc` whose second byte is past memory, a halted core. -/
theorem witness_StepReadsItsRandomInput_others :
    (∀ x kk, ¬ (fresh (at200 0x6A02)).core.about (.rnd x kk)) ∧
      (∀ x kk, ¬ (fresh (at200 0x0001)).core.about (.rnd x kk)) ∧
      (∀ x kk, ¬ (fresh (State.reset.setPc 0xFFF)).core.about (.rnd x kk)) ∧
      ∀ x kk, ¬ (stepped { State.reset with fault := some .stackOverflow }).core.about (.rnd x kk) := by
  refine ⟨fun x kk h => ?_, fun x kk h => ?_, fun x kk h => ?_, fun x kk h => nomatch h.1⟩
  · have e : (Except.ok (.ldImm 10 2) : Except DecodeError Instr) = .ok (.rnd x kk) := h.2.2
    cases e
  · have e : (Except.error (.invalidOpcode 0x0001) : Except DecodeError Instr) = .ok (.rnd x kk) := h.2.2
    cases e
  · exact absurd h.2.1 (by decide)

/-- The last `I` that fits, the first one outside, and the two between. -/
theorem witness_BcdStoresDigits :
    indexAddr (State.reset.setI 0xFFD) 2 ≤ 4095 ∧ 4095 < (State.reset.setI 0x1000).i.toNat ∧
      ((State.reset.setI 0xFFE).i.toNat ≤ 4095 ∧ 4095 < indexAddr (State.reset.setI 0xFFE) 2) ∧
      (State.reset.setI 0xFFF).i.toNat ≤ 4095 := by decide

/-- The same for a block of sixteen and of one; also for LoadRegistersFromIndex. -/
theorem witness_StoreRegistersAtIndex :
    indexAddr (State.reset.setI 0xFF0) 15 ≤ 4095 ∧ indexAddr (State.reset.setI 0xFFF) 0 ≤ 4095 ∧
      4095 < (State.reset.setI 0x1000).i.toNat ∧ (State.reset.setI 0xFF1).i.toNat ≤ 4095 ∧
      4095 < indexAddr (State.reset.setI 0xFF1) 15 := by decide

/-- A store that completes; its own result serves as `u`. -/
theorem witness_StoreThenLoadRestores :
    nextIs (exec (.storeRegs 15) (State.reset.setI 0xFF0)) (fun _ => true) = true := by decide

/-- The last address and the first outside. -/
theorem witness_MemoryPrimitives :
    (4095 ≤ 4095) ∧ (4095 < 4096) := by decide

/-- One memory written in two orders. -/
theorem witness_EqualMemoriesAreEqualLists :
    Memory.wf ((Memory.write [] 0x300 1).write 0x200 2) ∧
      Memory.wf ((Memory.write [] 0x200 2).write 0x300 1) :=
      ⟨Memory.wf_write _ (Memory.wf_write _ Memory.wf_nil (by decide)) (by decide),
      Memory.wf_write _ (Memory.wf_write _ Memory.wf_nil (by decide)) (by decide)⟩

/-- Program P5's store. -/
theorem witness_StoredBytesAreFetchedNext :
    let s := (regs 0x12 0x0A 0).setI 0x300
    nextIs (exec (.storeRegs 1) s) (fun t => (t.setPc 0x300).fault == none) = true ∧
      (0x120A : Word).toNat = 256 * (memAfter (.storeRegs 1) s 0x300).toNat + (memAfter (.storeRegs 1) s
      0x301).toNat ∧ decode 0x120A = .ok (.jp 0x20A) := by decide

/-- Tens and units of 123 at the top of memory: a word of no row. -/
theorem witness_StoredBytesAreFetchedNext_bcd :
    let s := (regs 0x7B 0 0).setI 0xFFD
    nextIs (exec (.ldBcd 0) s) (fun t => (t.setPc 0xFFE).fault == none) = true ∧ (0xFFE : Nat) < 0xFFF ∧
      (0x0203 : Word).toNat = 256 * (memAfter (.ldBcd 0) s 0xFFE).toNat + (memAfter (.ldBcd 0) s 0xFFF).toNat ∧
      decode 0x0203 = .error (.invalidOpcode 0x0203) := by decide

/-- One byte stored, the other as it was. -/
theorem witness_StoredBytesAreFetchedNext_half :
    let s := (regs 0x60 0 0).setI 0x300
    nextIs (exec (.storeRegs 0) s) (fun t => (t.setPc 0x300).fault == none) = true ∧
      (0x6000 : Word).toNat = 256 * (memAfter (.storeRegs 0) s 0x300).toNat + (memAfter (.storeRegs 0) s
      0x301).toNat ∧ decode 0x6000 = .ok (.ldImm 0 0) := by decide

/-- Covered pixels: the last one of the screen and a wrapped one. -/
theorem witness_DrawIsExclusiveOr :
    (List.replicate 15 (0xFF : Byte)).length ≤ 15 ∧ spriteCovers 63 31 [0x81] 63 31 ∧
      spriteCovers 63 31 [0x81] 6 31 :=
      ⟨by decide, ⟨0, 0, by decide, by decide, by decide, by decide, by decide⟩,
      ⟨0, 7, by decide, by decide, by decide, by decide, by decide⟩⟩

/-- A pixel not covered. -/
theorem witness_DrawIsExclusiveOr_not :
    ¬ spriteCovers 63 31 [] 63 31 := fun ⟨_, _, h, _⟩ => absurd h (by simp)

/-- A lit pixel hit, and none; the sprites also serve DrawTwiceRestores. -/
theorem witness_CollisionIffLitPixelHit :
    pixel (flipPixel clearFb 63 31) 63 31 = true ∧
      (draw (flipPixel clearFb 63 31) 63 31 [0x80]).collided = true ∧
      (draw clearFb 63 31 [0x80]).collided = false := by decide

/-- Height 0 with `I` far outside. -/
theorem witness_DrawInstruction_none :
    (0 : Nat) ≤ 15 ∧ ((0 : Nat) = 0 ∨ (State.reset.setI 0xFFFF).i.toNat + 0 ≤ 4096) := by decide

/-- The last `I` that fits fifteen rows, the first outside, and the first between. -/
theorem witness_DrawInstruction_bounds :
    (15 : Nat) ≤ 15 ∧ (State.reset.setI 0xFF1).i.toNat + 15 ≤ 4096 ∧ 4095 < (State.reset.setI 0x1000).i.toNat ∧
      (State.reset.setI 0xFF2).i.toNat ≤ 4095 ∧ 4096 < (State.reset.setI 0xFF2).i.toNat + 15 := by decide

/-- No key down; two down. -/
theorem witness_KeyWaitReadsLowestKey :
    (∀ k, State.reset.isDown k = false) ∧ (let s := (State.reset.pressKey 12).pressKey 3
      s.isDown 3 = true ∧ ∀ j, j < 3 → s.isDown j = false) := by decide

/-- A core that waits (V-KEY-4). -/
theorem witness_KeyWaitSpins :
    (at200 0xF10A).about (.ldVxKey 1) ∧ ∀ k, (at200 0xF10A).isDown k = false :=
      ⟨⟨by decide, by decide, by decide⟩, by decide⟩

/-- The longest ROM, one byte more, and a core that has stepped. -/
theorem witness_LoadRomPlacesBytes :
    Session.start.fresh = true ∧ (List.replicate 3584 (0 : Byte)).length ≤ 3584 ∧
      3584 < (List.replicate 3585 (0 : Byte)).length ∧ (stepped State.reset).fresh = false := by
  simp only [List.length_replicate]; decide

/-- A step that faults. -/
theorem witness_FaultLatchesAndHalts :
    (at200 0x0001).fault = none ∧ step ((at200 0x0001).offerRnd 7) = .fault (.invalidOpcode 0x0001) :=
      ⟨rfl, rfl⟩

/-- The other three kinds, the highest address among them. -/
theorem witness_FaultLatchesAndHalts_kinds :
    step ((at200 0x00EE).offerRnd 7) = .fault .stackUnderflow ∧
      step ((depth (at200 0x2ABC) 16).offerRnd 7) = .fault .stackOverflow ∧
      step ((State.reset.setPc 0xFFFF).offerRnd 7) = .fault (.memoryOutOfBounds 0xFFFF) := ⟨rfl, rfl, rfl⟩

/-- Three operations on a halted core. -/
theorem witness_OnlyResetLeavesTheHaltedState :
    let s : State := { State.reset with fault := some .stackUnderflow }
    s.fault = some .stackUnderflow ∧
      (∀ op ∈ [HostOp.tick, HostOp.step 0 State.reset, HostOp.keyPress 3], op ≠ .reset) ∧
      performAll [.tick, .step 0 State.reset, .keyPress 3] (stepped s) = .ok (stepped (s.tick.pressKey 3)) :=
      ⟨rfl, by simp, rfl⟩

/-- The invariant holds where a step completes. -/
theorem witness_StepKeepsInvariant :
    (at200 0x6A02).Inv ∧ nextIs (step (at200 0x6A02)) (fun _ => true) = true :=
      ⟨⟨fun _ h => (nomatch h), fun _ => ⟨Memory.wf_poke 0x201 0x02 (Memory.wf_poke 0x200 0x6A Memory.wf_nil),
      by decide, fun j h => absurd h (Nat.not_lt_zero j.val)⟩⟩,
      by decide⟩

/-- The invariant holds where an operation goes through. -/
theorem witness_OperationsKeepInvariant :
    (fresh (at200 0x6A02)).core.Inv ∧
      perform .tick (fresh (at200 0x6A02)) = .ok (fresh (at200 0x6A02).tick, .beep false) :=
      ⟨witness_StepKeepsInvariant.1, rfl⟩

/-- A launch state is reachable. -/
theorem witness_OperationsKeepInvariant_reachable :
    Reachable (fresh (State.reset.loadRom [0x6A, 0x02])) :=
      Reachable.next (.loadRom [0x6A, 0x02]) Reachable.start rfl

/-- A body that completes. -/
theorem witness_InstructionsWriteOnlyTheirElements :
    nextIs (exec (.loadRegs 15) (State.reset.setI 0xFF0)) (fun _ => true) = true := by decide

/-- Two states that agree on what an addition reads and differ elsewhere. -/
theorem witness_InstructionsReadOnlyTheirElements :
    ∀ e, instrReads (.addReg 0 1) (regs 1 2 3) e → e.same (regs 1 2 3) (regs 1 2 9) := by
  rintro e (rfl | rfl)
  · show State.getV _ _ = State.getV _ _
    decide
  · show State.getV _ _ = State.getV _ _
    decide

/-- Kept, and broken after a step. -/
theorem witness_OperationsSucceedWithinDuties :
    dutiesKept true [.loadRom [0x6A], .loadRom [0x60], .step 0 State.reset, .reset, .loadRom []] = true ∧
      dutiesKept true [.step 0 State.reset, .loadRom []] = false ∧ dutiesKept false [.loadRom []] = false :=
      by decide

/-- An operation that succeeds. -/
theorem witness_HostOperationsWriteOnlyTheirElements :
    perform (.keyPress 15) Session.start = .ok (fresh (State.reset.pressKey 15), .done) := rfl

end Sys2Proof.Tests
end

section
/-! The invariant of a run under every operation of the interface (00_scope.md R5): what a body needs and keeps
while the core is not halted (`State.Live`), which faults a step can report, and from these O56. -/

namespace Sys2Proof.Machine

/-! ## The core that is not halted -/

/-- Every stack entry in use is a return address (40_flow.md R110). -/
def State.returnsInRange (s : State) : Prop :=
  ∀ j : Fin 16, j.val < s.sp.val → 2 ≤ (s.getStack j).toNat ∧ (s.getStack j).toNat ≤ 0x1000

/-- The part of the invariant a running core has: not halted, canonical memory, `pc` and return addresses in
range. -/
def State.Live (s : State) : Prop :=
  s.fault = none ∧ s.mem.wf ∧ s.pc.toNat ≤ 0x10FE ∧ s.returnsInRange

theorem State.inv_iff_live {s : State} (hf : s.fault = none) : s.Inv ↔ s.Live := by
  simp [State.Inv, State.Live, State.returnsInRange, hf]

theorem State.Live.inv {s : State} (h : s.Live) : s.Inv := (State.inv_iff_live h.1).mpr h

theorem State.inv_iff_legal {s : State} {f : Fault} (hf : s.fault = some f) : s.Inv ↔ f.legal := by
  simp [State.Inv, hf]

/-! ### Updates that the invariant does not look at -/

@[simp] theorem State.live_setV (s : State) (x : RegIdx) (b : Byte) : (s.setV x b).Live ↔ s.Live := Iff.rfl
@[simp] theorem State.live_setI (s : State) (w : Word) : (s.setI w).Live ↔ s.Live := Iff.rfl
@[simp] theorem State.live_setDt (s : State) (b : Byte) : (s.setDt b).Live ↔ s.Live := Iff.rfl
@[simp] theorem State.live_setSt (s : State) (b : Byte) : (s.setSt b).Live ↔ s.Live := Iff.rfl
@[simp] theorem State.live_setFb (s : State) (f : Framebuffer) : (s.setFb f).Live ↔ s.Live := Iff.rfl
@[simp] theorem State.live_withRndOf (t s : State) : (t.withRndOf s).Live ↔ t.Live := Iff.rfl
@[simp] theorem State.live_useRnd (s : State) : s.useRnd.Live ↔ s.Live := by
  simp [State.Live, State.returnsInRange]

@[simp] theorem State.live_shiftRight (src : ShiftSrc) (x y : RegIdx) (s : State) :
    (shiftRight src x y s).Live ↔ s.Live := Iff.rfl
@[simp] theorem State.live_shiftLeft (src : ShiftSrc) (x y : RegIdx) (s : State) :
    (shiftLeft src x y s).Live ↔ s.Live := Iff.rfl

@[simp] theorem State.live_drawSprite (x y : RegIdx) (sprite : List Byte) (s : State) :
    (drawSprite x y sprite s).Live ↔ s.Live := by
  rw [drawSprite_eq]
  split <;> simp

@[simp] theorem State.inv_offerRnd (s : State) (b : Byte) : (s.offerRnd b).Inv ↔ s.Inv := Iff.rfl
@[simp] theorem State.inv_tick (s : State) : s.tick.Inv ↔ s.Inv := Iff.rfl
@[simp] theorem State.inv_pressKey (s : State) (k : KeyIdx) : (s.pressKey k).Inv ↔ s.Inv := Iff.rfl
@[simp] theorem State.inv_releaseKeys (s : State) : s.releaseKeys.Inv ↔ s.Inv := Iff.rfl

/-! ### Updates of `pc`, memory and the stack -/

theorem State.Live.setPc {s : State} (h : s.Live) {w : Word} (hw : w.toNat ≤ 0x10FE) : (s.setPc w).Live := by
  obtain ⟨hf, hm, -, hr⟩ := h
  exact ⟨hf, hm, hw, hr⟩

theorem State.Live.skipIf {s : State} (h : s.Live) (hpc : s.pc.toNat ≤ 0x1000) (c : Bool) :
    (s.skipIf c).Live := by
  obtain ⟨-, hc⟩ | ⟨-, hc⟩ := s.skipIf_cases c
  · rw [hc]
    exact h.setPc (by bv_omega)
  · rwa [hc]

theorem State.Live.writeBytes {s : State} (h : s.Live) {a : Nat} {bs : List Byte} (ha : a + bs.length ≤ 4096) :
    State.Live { s with mem := s.mem.writeBytes a bs } := by
  obtain ⟨hf, hm, hpc, hr⟩ := h
  exact ⟨hf, Memory.wf_writeBytes bs hm ha, hpc, hr⟩

/-- A popped entry was in use, so `pc` lands on a return address; fewer entries are in use. -/
theorem State.Live.popped {s : State} (h : s.Live) {j : Fin 16} (hj : s.sp.val = j.val + 1) :
    State.Live { s with sp := j.castSucc, pc := s.getStack j } := by
  obtain ⟨hf, hm, -, hr⟩ := h
  have hpc := (hr j (by omega)).2
  refine ⟨hf, hm, le_trans hpc (by decide), fun k hk => hr k ?_⟩
  simp only [Fin.val_castSucc] at hk
  omega

/-- A return address pushed: the entries below it are as before. -/
theorem State.Live.pushed {s : State} (h : s.Live) (hsp : s.sp.val < 16) {ra : Word} (hlo : 2 ≤ ra.toNat)
    (hhi : ra.toNat ≤ 0x1000) :
    State.Live { s with stack := s.stack.set s.sp.val ra hsp, sp := ⟨s.sp.val + 1, Nat.succ_lt_succ hsp⟩ } := by
  obtain ⟨hf, hm, hpc, hr⟩ := h
  refine ⟨hf, hm, hpc, fun j hj => ?_⟩
  rw [State.getStack_set]
  split
  · exact ⟨hlo, hhi⟩
  · exact hr j (by simp only at hj; omega)

/-! ## Where a body can send `pc` -/

theorem absTarget_toNat_le (nnn : BitVec 12) : (absTarget nnn).toNat ≤ 0xFFF := by
  have := nnn.isLt
  simp only [absTarget]
  bv_omega

/-- The largest target of Bnnn is 0xFFF + 0xFF (10_state.md R26). -/
theorem offsetTarget_toNat_le (s : State) (nnn : BitVec 12) : (offsetTarget s nnn).toNat ≤ 0x10FE := by
  have := absTarget_toNat_le nnn
  have := (s.getV 0).isLt
  simp only [offsetTarget, zext16]
  bv_omega

/-! ## What a body answers -/

/-- The first address outside of an access that starts at a word is one above 4095 that fits 16 bits. -/
theorem legal_firstOutside (w : Word) : (Fault.memoryOutOfBounds (firstOutside w.toNat)).legal := by
  have := w.isLt
  simp only [Fault.legal, firstOutside, Config.memSize]
  split <;> omega

/-- What the outcome of a body from `s` is held to: the `pc` a step gives it, past an instruction with both its
bytes in memory, leads a running core to a running core; a fault is legal; and nothing is refused. -/
def State.BodyKeeps (s : State) : Result → Prop
  | .next t => s.Live → 2 ≤ s.pc.toNat → s.pc.toNat ≤ 0x1000 → t.Live
  | .fault f => f.legal
  | .refused _ => False

theorem exec_bodyKeeps (i : Instr) (s : State) : s.BodyKeeps (exec i s) := by
  cases i
  case jp nnn =>
    intro hs _ _
    exact hs.setPc ((absTarget_toNat_le nnn).trans (by decide))
  case jpV0 nnn =>
    intro hs _ _
    exact hs.setPc (offsetTarget_toNat_le s nnn)
  case ret =>
    by_cases hsp : s.sp.val = 0
    · rw [exec_ret_empty s hsp]
      trivial
    · have hj : s.sp.val = (⟨s.sp.val - 1, by omega⟩ : Fin 16).val + 1 := (Nat.succ_pred hsp).symm
      rw [exec_ret_pops s _ hj]
      intro hs _ _
      exact hs.popped hj
  case call nnn =>
    by_cases hsp : s.sp.val < 16
    · rw [exec_call_pushes nnn s hsp]
      intro hs hlo hhi
      exact (hs.pushed hsp hlo hhi).setPc ((absTarget_toNat_le nnn).trans (by decide))
    · rw [exec_call_full nnn s (by omega)]
      trivial
  case seImm | sneImm | seReg | sneReg | skp | sknp =>
    intro hs _ hhi
    exact hs.skipIf hhi _
  case ldVxKey x =>
    cases hk : s.lowestKeyDown with
    | none =>
      rw [exec_ldVxKey_none x s hk]
      intro hs hlo hhi
      exact hs.setPc (by bv_omega)
    | some k =>
      rw [exec_ldVxKey_some x s k hk]
      intro hs _ _
      simpa using hs
  case ldBcd x =>
    by_cases hi : s.i.toNat + 2 < 4096
    · rw [exec_ldBcd_inside x s hi]
      intro hs _ _
      exact hs.writeBytes (by simp [bcdDigits]; omega)
    · rw [exec_ldBcd_outside x s (by omega)]
      exact legal_firstOutside s.i
  case storeRegs x =>
    by_cases hi : s.i.toNat + x.val < 4096
    · rw [exec_storeRegs_inside x s hi]
      intro hs _ _
      exact hs.writeBytes (by simp [regBlock_length]; omega)
    · rw [exec_storeRegs_outside x s (by omega)]
      exact legal_firstOutside s.i
  case loadRegs x =>
    by_cases hi : s.i.toNat + x.val < 4096
    · obtain ⟨v', hv, -⟩ := exec_loadRegs_inside x s hi
      rw [hv]
      intro hs _ _
      exact hs
    · rw [exec_loadRegs_outside x s (by omega)]
      exact legal_firstOutside s.i
  case drw x y n =>
    by_cases hi : n = 0 ∨ s.i.toNat + n ≤ 4096
    · rw [exec_drw_inside x y n s hi]
      intro hs _ _
      simpa using hs
    · rw [exec_drw_outside x y n s (by omega) (by omega)]
      exact legal_firstOutside s.i
  all_goals
    intro hs _ _
    simpa using hs

theorem exec_next_live {i : Instr} {s t : State} (hs : s.Live) (hlo : 2 ≤ s.pc.toNat) (hhi : s.pc.toNat ≤ 0x1000)
    (h : exec i s = .next t) : t.Live :=
  (h ▸ exec_bodyKeeps i s : s.BodyKeeps (.next t)) hs hlo hhi

/-- A body raises legal faults only (60_exceptions.md R200), from every state. -/
theorem exec_fault_legal {i : Instr} {s : State} {f : Fault} (h : exec i s = .fault f) : f.legal :=
  (h ▸ exec_bodyKeeps i s : s.BodyKeeps (.fault f))

/-! ## The step -/

/-- A step that completes leaves a running core with the invariant. -/
theorem step_next_live {s t : State} (hs : s.Inv) (h : step s = .next t) : t.Live := by
  obtain ⟨hf, hp, i, -, hi⟩ := step_next_cases h
  have hpc : s.advance.pc.toNat = s.pc.toNat + 2 := by
    rw [State.advance_pc]
    bv_omega
  have hadv : s.advance.Live := ((State.inv_iff_live hf).mp hs).setPc (by rw [← State.advance_pc, hpc]; omega)
  exact exec_next_live hadv (by omega) (by omega) hi

/-- Everything a step of a running core that faults can report: an address of the fetch, the word it cannot
decode, or the fault of a body. -/
theorem step_fault_cases {s : State} {f : Fault} (hf : s.fault = none) (h : step s = .fault f) :
    (4096 ≤ s.pc.toNat ∧ f = .memoryOutOfBounds s.pc.toNat) ∨
    (s.pc.toNat = 4095 ∧ f = .memoryOutOfBounds 4096) ∨
    (s.pc.toNat + 1 < 4096 ∧ (∃ e, decode s.wordAtPc = .error e) ∧ f = .invalidOpcode s.wordAtPc) ∨
    (s.pc.toNat + 1 < 4096 ∧ ∃ i, decode s.wordAtPc = .ok i ∧ exec i s.advance = .fault f) := by
  by_cases hp : s.pc.toNat + 1 < 4096
  · right; right
    cases hd : decode s.wordAtPc with
    | error e =>
      simp only [step, hf, s.fetch_inside hp, ← State.wordAtPc.eq_1, hd, raise] at h
      cases h
      exact .inl ⟨hp, ⟨e, rfl⟩, rfl⟩
    | ok i =>
      rw [step_runs s i hf hp hd] at h
      exact .inr ⟨hp, i, rfl, h⟩
  · by_cases hq : 4096 ≤ s.pc.toNat
    · simp only [step, hf, s.fetch_first_outside hq, raise] at h
      cases h
      exact .inl ⟨hq, rfl⟩
    · have hpc : s.pc.toNat = 4095 := by omega
      simp only [step, hf, s.fetch_second_outside hpc, raise] at h
      cases h
      exact .inr (.inl ⟨hpc, rfl⟩)

/-- A step of a running core reports legal faults only (60_exceptions.md R204). -/
theorem step_fault_legal {s : State} {f : Fault} (hf : s.fault = none) (h : step s = .fault f) : f.legal := by
  obtain ⟨hp, rfl⟩ | ⟨-, rfl⟩ | ⟨-, -, rfl⟩ | ⟨-, i, -, hi⟩ := step_fault_cases hf h
  · exact ⟨hp, s.pc.isLt⟩
  · exact ⟨le_rfl, by decide⟩
  · trivial
  · exact exec_fault_legal hi

/-! ## The operations -/

theorem State.reset_live : State.reset.Live :=
  ⟨rfl, Memory.wf_nil, by decide, fun j hj => absurd hj (Nat.not_lt_zero j.val)⟩

theorem State.hostReset_inv (s : State) : s.hostReset.Inv := State.reset_live.inv

/-- A ROM that fits stays inside memory; a halted core keeps its latched fault. -/
theorem State.Inv.loadRom {s : State} (h : s.Inv) {bs : List Byte} (hb : bs.length ≤ 3584) :
    (s.loadRom bs).Inv := by
  cases hf : s.fault with
  | some f => exact (State.inv_iff_legal (s := s.loadRom bs) hf).mpr ((State.inv_iff_legal hf).mp h)
  | none =>
    have ha : Config.programBase + bs.length ≤ 4096 := by
      simp only [Config.programBase]
      omega
    exact (((State.inv_iff_live hf).mp h).writeBytes ha).inv

/-- `Step` keeps the invariant: the halted core is the same, a completed step leaves a running core, and a fault is
latched as a legal one, whatever `rest` is. -/
theorem State.Inv.hostStep {s t rest : State} {b : Byte} {r : Report} (hs : s.Inv)
    (h : s.hostStep b rest = .ok (t, r)) : t.Inv := by
  obtain ⟨f, -, rfl, -⟩ | ⟨-, u, hu, rfl, -⟩ | ⟨hf, f, hu, rfl, -⟩ := State.hostStep_cases h
  · exact hs
  · have hlive : u.Live := step_next_live ((s.inv_offerRnd b).mpr hs) hu
    exact ((u.live_withRndOf s).mpr hlive).inv
  · exact (State.inv_iff_legal (s.latchFault_fault rest f)).mpr (step_fault_legal (s := s.offerRnd b) hf hu)

theorem perform_keeps_inv {m t : Session} {op : HostOp} {r : Report} (hm : m.core.Inv)
    (h : perform op m = .ok (t, r)) : t.core.Inv := by
  obtain ⟨-, rfl⟩ | ⟨bs, -, -, hb, rfl⟩ | ⟨b, rest, s, -, hs, rfl⟩ | ⟨-, rfl⟩ | ⟨k, -, rfl⟩ | ⟨-, rfl⟩ |
    ⟨-, rfl⟩ := perform_cases h
  · exact m.core.hostReset_inv
  · exact hm.loadRom hb
  · exact hm.hostStep hs
  · simpa using hm
  · simpa using hm
  · simpa using hm
  · exact hm

theorem Reachable.inv {m : Session} (h : Reachable m) : m.core.Inv := by
  induction h with
  | start => exact State.reset_live.inv
  | next op _ hp ih => exact perform_keeps_inv ih hp

/-- Settles O56: every operation keeps the invariant (`perform_keeps_inv`), so by induction on how a session is
reached every reachable one has it. -/
theorem operationsKeepInvariant : Obligations.OperationsKeepInvariant := by
  unfold Obligations.OperationsKeepInvariant
  exact ⟨fun _ _ _ _ hm h => perform_keeps_inv hm h, fun _ h => h.inv⟩

end Sys2Proof.Machine
end

section
/-! What an instruction may write (10_state.md R35, the column "written by"), and the `pc` a step leaves (R25). -/

namespace Sys2Proof.Machine

/-! ## Frames of the shared updates -/

theorem changesOnly_skipIf (s : State) (c : Bool) : ChangesOnly (fun e => e = .pc) s (s.skipIf c) := by
  obtain ⟨-, hc⟩ | ⟨-, hc⟩ := s.skipIf_cases c
  · rw [hc]
    exact changesOnly_setPc s _
  · rw [hc]
    exact ChangesOnly.refl _ s

/-- A flag written, then a result: the two registers change. -/
theorem changesOnly_setV_flag (s : State) (x : RegIdx) (flag b : Byte) :
    ChangesOnly (fun e => e = .v x ∨ e = .v vF) s ((s.setV vF flag).setV x b) :=
  ((changesOnly_setV s vF flag).mono fun _ => .inr).trans ((changesOnly_setV _ x b).mono fun _ => .inl)

theorem changesOnly_useRnd (s : State) : ChangesOnly (fun e => e = .rnd) s s.useRnd := by
  intro e he
  cases e
  case rnd => exact absurd rfl he
  all_goals simp [Element.same]

/-- A pushed entry lands at `sp`. -/
theorem changesOnly_pushed (s : State) (w : Word) (hsp : s.sp.val < 16) (p : Fin 17) (q : Word) :
    ChangesOnly (fun e => e = .pc ∨ e = .sp ∨ ∃ j : Fin 16, j.val = s.sp.val ∧ e = .stack j) s
      { s with stack := s.stack.set s.sp.val w hsp, sp := p, pc := q } := by
  intro e he
  cases e
  case stack j =>
    have hj : j.val ≠ s.sp.val := fun hj => he (.inr (.inr ⟨j, hj, rfl⟩))
    exact (s.getStack_set s.sp.val hsp w p j).trans (if_neg hj)
  case pc | sp => simp at he
  case rnd => exact ⟨rfl, rfl⟩
  all_goals exact rfl

theorem changesOnly_popped (s : State) (p : Fin 17) (q : Word) :
    ChangesOnly (fun e => e = .pc ∨ e = .sp) s { s with sp := p, pc := q } := by
  intro e he
  cases e
  case pc | sp => simp at he
  case rnd => exact ⟨rfl, rfl⟩
  all_goals exact rfl

theorem changesOnly_drawSprite (x y : RegIdx) (sprite : List Byte) (s : State) :
    ChangesOnly (fun e => e = .v vF ∨ ∃ px py, e = .pixel px py) s (drawSprite x y sprite s) := by
  have hfb (f : Framebuffer) :
      ChangesOnly (fun e => e = .v vF ∨ ∃ px py, e = .pixel px py) s (s.setFb f) :=
    (changesOnly_setFb s f).mono fun _ => .inr
  rw [drawSprite_eq]
  split
  · exact (hfb _).trans ((changesOnly_setV _ vF 1).mono fun _ => .inl)
  · exact hfb _

/-- Bytes stored from `I` upward land on the addresses of the instruction. -/
theorem changesOnly_writeBytes_index (s : State) {k : Nat} {bs : List Byte} (hb : bs.length = k + 1) :
    ChangesOnly (fun e => ∃ a, inIndexRange s k a ∧ e = .mem a) s
      { s with mem := s.mem.writeBytes s.i.toNat bs } := by
  refine (changesOnly_writeBytes s s.i.toNat bs).mono ?_
  rintro e ⟨a, hlo, hhi, rfl⟩
  exact ⟨a, by simp only [inIndexRange, indexAddr]; omega, rfl⟩

/-- Registers that read as before outside a set are the only ones changed. -/
theorem changesOnly_registers (s : State) (v' : Vector Byte 16) (p : RegIdx → Prop)
    (h : ∀ r, ¬ p r → State.getV { s with v := v' } r = s.getV r) :
    ChangesOnly (fun e => ∃ r, p r ∧ e = .v r) s { s with v := v' } := by
  intro e he
  cases e
  case v r => exact h r fun hr => he ⟨r, hr, rfl⟩
  case rnd => exact ⟨rfl, rfl⟩
  all_goals exact rfl

/-! ## The bodies -/

/-- A body that completes writes the elements of its column only. -/
theorem exec_changesOnly {i : Instr} {s t : State} (h : exec i s = .next t) :
    ChangesOnly (instrWrites i s) s t := by
  cases i
  case cls =>
    cases h
    exact changesOnly_setFb s clearFb
  case jp | jpV0 =>
    cases h
    exact changesOnly_setPc s _
  case seImm | sneImm | seReg | sneReg | skp | sknp =>
    cases h
    exact changesOnly_skipIf s _
  case ldImm x _ | addImm x _ | ldReg x _ | orReg x _ | andReg x _ | xorReg x _ | ldVxDt x =>
    cases h
    exact changesOnly_setV s x _
  case addReg x _ | subReg x _ | subnReg x _ | shr x _ | shl x _ =>
    cases h
    exact changesOnly_setV_flag s x _ _
  case rnd x kk =>
    cases h
    exact ((changesOnly_useRnd s).mono fun _ => .inr).trans ((changesOnly_setV _ x _).mono fun _ => .inl)
  case ldI | addI | ldFont =>
    cases h
    exact changesOnly_setI s _
  case ldDtVx =>
    cases h
    exact changesOnly_setDt s _
  case ldStVx =>
    cases h
    exact changesOnly_setSt s _
  case ldVxKey x =>
    cases hk : s.lowestKeyDown with
    | none =>
      rw [exec_ldVxKey_none x s hk] at h
      cases h
      exact (changesOnly_setPc s _).mono fun _ => .inr
    | some k =>
      rw [exec_ldVxKey_some x s k hk] at h
      cases h
      exact (changesOnly_setV s x _).mono fun _ => .inl
  case ret =>
    by_cases hsp : s.sp.val = 0
    · rw [exec_ret_empty s hsp] at h
      cases h
    · rw [exec_ret_pops s ⟨s.sp.val - 1, by omega⟩ (Nat.succ_pred hsp).symm] at h
      cases h
      exact changesOnly_popped s _ _
  case call nnn =>
    by_cases hsp : s.sp.val < 16
    · rw [exec_call_pushes nnn s hsp] at h
      cases h
      exact changesOnly_pushed s s.pc hsp _ _
    · rw [exec_call_full nnn s (by omega)] at h
      cases h
  case drw x y n =>
    by_cases hi : n = 0 ∨ s.i.toNat + n ≤ 4096
    · rw [exec_drw_inside x y n s hi] at h
      cases h
      exact ((changesOnly_setV s vF 0).mono fun _ => .inl).trans (changesOnly_drawSprite x y _ _)
    · rw [exec_drw_outside x y n s (by omega) (by omega)] at h
      cases h
  case ldBcd x =>
    by_cases hi : s.i.toNat + 2 < 4096
    · rw [exec_ldBcd_inside x s hi] at h
      cases h
      exact changesOnly_writeBytes_index s rfl
    · rw [exec_ldBcd_outside x s (by omega)] at h
      cases h
  case storeRegs x =>
    by_cases hi : s.i.toNat + x.val < 4096
    · rw [exec_storeRegs_inside x s hi] at h
      cases h
      exact changesOnly_writeBytes_index s (by simp [regBlock_length])
    · rw [exec_storeRegs_outside x s (by omega)] at h
      cases h
  case loadRegs x =>
    by_cases hi : s.i.toNat + x.val < 4096
    · obtain ⟨v', hv, hr⟩ := exec_loadRegs_inside x s hi
      rw [hv] at h
      cases h
      exact changesOnly_registers s v' (· ≤ x) fun r hrx => (hr r).trans (if_neg hrx)
    · rw [exec_loadRegs_outside x s (by omega)] at h
      cases h

/-- Settles O57: per instruction, the frame of what its body writes (`exec_changesOnly`). -/
theorem instructionsWriteOnlyTheirElements : Obligations.InstructionsWriteOnlyTheirElements := by
  unfold Obligations.InstructionsWriteOnlyTheirElements
  exact fun _ _ _ h => exec_changesOnly h

end Sys2Proof.Machine
end

section
/-! The table of 10_state.md R25: which `pc` a completed step leaves. -/

namespace Sys2Proof.Machine

/-- A body that does not list `pc` leaves the `pc` that step gave it. -/
theorem exec_pc_kept {i : Instr} {s t : State} (h : exec i s = .next t) (hpc : ¬ instrWrites i s .pc) :
    t.pc = s.pc :=
  exec_changesOnly h .pc hpc

/-- A skip taken moves 4 past its own address, one not taken 2 (41_skip.md R124). -/
theorem State.advance_skipIf_pc (s : State) (c : Bool) :
    (s.advance.skipIf c).pc = if c then s.pc + 4 else s.pc + 2 := by
  cases c
  · rfl
  · show s.pc + 2 + 2 = s.pc + 4
    bv_omega

/-- The key wait goes on exactly when some key is down (45_keypad_timer.md R193). -/
theorem State.lowestKeyDown_isSome_iff (s : State) : s.lowestKeyDown.isSome ↔ ∃ k, s.isDown k = true := by
  rw [← not_iff_not, Option.not_isSome_iff_eq_none, s.lowestKeyDown_eq_none]
  simp

/-- The body of an instruction, from the advanced `pc`, leaves the one of the table. -/
theorem exec_advance_pc {i : Instr} {s t : State} (h : exec i s.advance = .next t) : t.pc = pcAfter i s := by
  cases i
  case jp | jpV0 =>
    cases h
    rfl
  case seImm | sneImm | seReg | sneReg | skp =>
    cases h
    simp [State.advance_skipIf_pc, pcAfter]
  case sknp k =>
    cases h
    cases hk : s.isDown k <;> simp [State.advance_skipIf_pc, pcAfter, hk]
  case ret =>
    by_cases hsp : s.sp.val = 0
    · rw [exec_ret_empty s.advance hsp] at h
      cases h
    · have hj : s.sp.val - 1 < 16 := by omega
      rw [exec_ret_pops s.advance ⟨s.sp.val - 1, hj⟩ (Nat.succ_pred hsp).symm] at h
      cases h
      simp [pcAfter, hj]
  case call nnn =>
    by_cases hsp : s.sp.val < 16
    · rw [exec_call_pushes nnn s.advance hsp] at h
      cases h
      rfl
    · rw [exec_call_full nnn s.advance (by simp only [State.advance_sp]; omega)] at h
      cases h
  case ldVxKey x =>
    have hkey := s.advance.lowestKeyDown_isSome_iff
    simp only [State.advance_isDown] at hkey
    cases hk : s.advance.lowestKeyDown with
    | none =>
      rw [exec_ldVxKey_none x _ hk] at h
      cases h
      have hup : ¬ ∃ k, s.isDown k = true := by simp [← hkey, hk]
      rw [pcAfter, if_neg hup]
      exact BitVec.add_sub_cancel s.pc 2
    | some k =>
      rw [exec_ldVxKey_some x _ k hk] at h
      cases h
      rw [pcAfter, if_pos (hkey.mp (by simp [hk]))]
      rfl
  all_goals exact exec_pc_kept h (by simp [instrWrites])

/-- Settles O10: a step that completes ran the body of the instruction at `pc` (`step_next_cases`), and that body
leaves the `pc` of the table. -/
theorem pcAfterEachStep : Obligations.PcAfterEachStep := by
  unfold Obligations.PcAfterEachStep
  rintro s t i ⟨-, -, hi⟩ h
  obtain ⟨-, -, j, hj, ht⟩ := step_next_cases h
  obtain rfl : i = j := Except.ok.inj (hi.symm.trans hj)
  exact exec_advance_pc ht

end Sys2Proof.Machine
end

section
/-! The reset state (10_state.md R36), the invariant of a step (R26), and what each operation of the interface may
write (R35; 60_exceptions.md R210 to R215). -/

namespace Sys2Proof.Machine

/-- Settles O55: a step that completes leaves a running core with the invariant (`step_next_live`). -/
theorem stepKeepsInvariant : Obligations.StepKeepsInvariant := by
  unfold Obligations.StepKeepsInvariant
  intro s t hs h
  have hlive : t.Live := step_next_live hs h
  exact ⟨hlive.inv, hlive.1⟩

/-- Settles O54: the reset state is a running core with the invariant (`State.reset_live`). -/
theorem resetSatisfiesInvariant : Obligations.ResetSatisfiesInvariant := by
  unfold Obligations.ResetSatisfiesInvariant
  exact State.reset_live.inv

/-! ## Reset -/

theorem State.reset_hasResetValues : State.reset.hasResetValues :=
  ⟨by decide, rfl, rfl, by decide, rfl, rfl, rfl, fun _ ha => if_pos ha, fun _ ha => if_neg (Nat.not_lt.mpr ha),
    pixel_clearFb, by decide, rfl⟩

/-- `Reset()` keeps only the host's random input, of which the table says nothing. -/
theorem State.hostReset_hasResetValues (s : State) : s.hostReset.hasResetValues := State.reset_hasResetValues

/-- Settles O53: the reset state and the core after `Reset()` hold the table of R36. -/
theorem resetStateIsTheTable : Obligations.ResetStateIsTheTable := by
  unfold Obligations.ResetStateIsTheTable
  exact ⟨State.reset_hasResetValues, fun m =>
    ⟨⟨m.core.hostReset, true⟩, rfl, rfl, m.core.hostReset_hasResetValues⟩⟩

/-! ## The operations -/

/-- An update that puts the host's random input back may change every other element. -/
theorem changesOnly_of_rnd_kept {s t : State} (hin : t.rndIn = s.rndIn) (hdraws : t.draws = s.draws) :
    ChangesOnly (fun e => e ≠ .rnd) s t := by
  intro e he
  obtain rfl : e = .rnd := not_not.mp he
  exact ⟨hin, hdraws⟩

theorem changesOnly_hostStep {s t rest : State} {b : Byte} {r : Report} (h : s.hostStep b rest = .ok (t, r)) :
    ChangesOnly (fun e => e ≠ .rnd) s t := by
  obtain ⟨f, -, rfl, -⟩ | ⟨-, u, -, rfl, -⟩ | ⟨-, f, -, rfl, -⟩ := State.hostStep_cases h
  · exact ChangesOnly.refl _ _
  · exact changesOnly_of_rnd_kept (u.withRndOf_rndIn s) (u.withRndOf_draws s)
  · exact changesOnly_of_rnd_kept (s.latchFault_rndIn rest f) (s.latchFault_draws rest f)

theorem changesOnly_loadRom (s : State) (bs : List Byte) :
    ChangesOnly (HostOp.loadRom bs).writes s (s.loadRom bs) :=
  changesOnly_writeBytes s Config.programBase bs

theorem changesOnly_tick (s : State) : ChangesOnly (fun e => e = .dt ∨ e = .st) s s.tick :=
  ((changesOnly_setDt s _).mono fun _ => .inl).trans ((changesOnly_setSt _ _).mono fun _ => .inr)

theorem changesOnly_pressKey (s : State) (k : KeyIdx) : ChangesOnly (fun e => e = .key k) s (s.pressKey k) := by
  intro e he
  cases e
  case key j =>
    have hj : j ≠ k := fun hj => he (congrArg _ hj)
    exact (s.isDown_pressKey k j).trans (if_neg hj)
  all_goals simp [Element.same]

theorem changesOnly_releaseKeys (s : State) : ChangesOnly (fun e => ∃ k, e = .key k) s s.releaseKeys := by
  intro e he
  cases e
  case key k => exact absurd ⟨k, rfl⟩ he
  all_goals simp [Element.same]

/-- Settles O59: the frame of each operation that goes through (`perform_cases`). -/
theorem hostOperationsWriteOnlyTheirElements : Obligations.HostOperationsWriteOnlyTheirElements := by
  unfold Obligations.HostOperationsWriteOnlyTheirElements
  intro op m t r h
  obtain ⟨rfl, rfl⟩ | ⟨bs, rfl, -, -, rfl⟩ | ⟨b, rest, s, rfl, hs, rfl⟩ | ⟨rfl, rfl⟩ | ⟨k, rfl, rfl⟩ |
    ⟨rfl, rfl⟩ | ⟨-, rfl⟩ := perform_cases h
  · exact changesOnly_of_rnd_kept rfl rfl
  · exact changesOnly_loadRom m.core bs
  · exact changesOnly_hostStep hs
  · exact changesOnly_tick m.core
  · exact changesOnly_pressKey m.core k
  · exact changesOnly_releaseKeys m.core
  · exact ChangesOnly.refl _ _

end Sys2Proof.Machine
end

section
/-! What an instruction may read (10_state.md R35, the column "read by"): from two states that agree on it, what is
written agrees too, and the frame of the body (`exec_changesOnly`) says the rest. -/

namespace Sys2Proof.Machine

/-! ## Values the bodies compute, from states that agree -/

theorem framebuffer_ext {f g : Framebuffer} (h : ∀ px py, pixel f px py = pixel g px py) : f = g := by
  refine Vector.ext fun py hpy => BitVec.eq_of_getLsbD_eq fun px hpx => ?_
  exact h ⟨px, hpx⟩ ⟨py, hpy⟩

theorem State.lowestKeyDown_congr {s t : State} (h : ∀ k, t.isDown k = s.isDown k) :
    t.lowestKeyDown = s.lowestKeyDown :=
  congrArg allKeys.find? (funext h)

theorem State.nextRnd_congr {s t : State} (h : Element.rnd.same s t) : t.nextRnd = s.nextRnd := by
  obtain ⟨hin, hdraws⟩ := h
  simp [State.nextRnd, hin, hdraws]

theorem State.useRnd_same {s t : State} (h : Element.rnd.same s t) : Element.rnd.same s.useRnd t.useRnd := by
  obtain ⟨hin, hdraws⟩ := h
  cases hs : s.rndIn with
  | nil =>
    rw [s.useRnd_free hs, t.useRnd_free (hin.trans hs)]
    exact ⟨hin, congrArg (· + 1) hdraws⟩
  | cons b rest =>
    rw [s.useRnd_named hs, t.useRnd_named (hin.trans hs)]
    exact ⟨rfl, hdraws⟩

theorem spriteBytes_congr {s t : State} {n : Nat} (hi : t.i = s.i)
    (hm : ∀ r, r < n → t.mem.read (s.i.toNat + r) = s.mem.read (s.i.toNat + r)) :
    spriteBytes t n = spriteBytes s n := by
  refine List.map_congr_left fun r hr => ?_
  rw [hi]
  exact hm r (List.mem_range.mp hr)

theorem regBlock_bytes_congr {s t : State} {x : RegIdx} (h : ∀ r, r ≤ x → t.getV r = s.getV r) :
    (regBlock x).map t.getV = (regBlock x).map s.getV :=
  List.map_congr_left fun r hr => h r ((mem_regBlock x r).mp hr)

/-- The same flag and the same result leave both registers the same. -/
theorem setV_flag_same {s t : State} {x : RegIdx} {flag flag' b b' : Byte} (hf : flag' = flag) (hb : b' = b)
    {e : Element} (he : e = .v x ∨ e = .v vF) :
    e.same ((s.setV vF flag).setV x b) ((t.setV vF flag').setV x b') := by
  obtain rfl | rfl := he <;> simp [Element.same, State.getV_setV, hf, hb]

theorem drawSprite_same {s t : State} (x y : RegIdx) (sprite : List Byte) (hx : t.getV x = s.getV x)
    (hy : t.getV y = s.getV y) (hvF : t.getV vF = s.getV vF) (hfb : t.fb = s.fb) {e : Element}
    (he : e = .v vF ∨ ∃ px py, e = .pixel px py) :
    e.same (drawSprite x y sprite s) (drawSprite x y sprite t) := by
  rw [drawSprite_eq, drawSprite_eq, hx, hy, hfb]
  obtain rfl | ⟨px, py, rfl⟩ := he <;> split <;> simp [Element.same, hvF]

/-- The same bytes stored from the same address: the addresses they land on read the same. -/
theorem Memory.read_writeBytes_congr {m m' : Memory} {a b : Nat} (bs : List Byte) (hlo : a ≤ b) (hhi : b < a + bs.length) :
    (m'.writeBytes a bs).read b = (m.writeBytes a bs).read b := by
  obtain ⟨k, rfl⟩ := Nat.exists_eq_add_of_le hlo
  rw [m'.read_writeBytes_inside, m.read_writeBytes_inside]
  omega

theorem State.skipIf_pc_congr {s t : State} {c d : Bool} (hpc : t.pc = s.pc) (hc : d = c) :
    (t.skipIf d).pc = (s.skipIf c).pc := by
  rw [hc]
  cases c
  · exact hpc
  · exact congrArg (· + 2) hpc

/-! ## The bodies -/

/-- `SameEffect`, asked only of the elements the instruction may write from `s₁`. -/
def SameEffectOnWrites (i : Instr) (s₁ s₂ : State) : Result → Result → Prop
  | .next t₁, .next t₂ => ∀ e, instrWrites i s₁ e → e.same t₁ t₂ ∨ (e.same s₁ t₁ ∧ e.same s₂ t₂)
  | .fault f, .fault g => f = g
  | .refused r, .refused q => r = q
  | _, _ => False

/-- Where an instruction writes depends on what it reads only (`sp` for the entry of a call, `I` for a store). -/
theorem instrWrites_congr {i : Instr} {s₁ s₂ : State} (h : ∀ e, instrReads i s₁ e → e.same s₁ s₂) (e : Element)
    (he : instrWrites i s₂ e) : instrWrites i s₁ e := by
  cases i
  case call =>
    have hsp : s₂.sp = s₁.sp := h .sp (.inl rfl)
    rwa [instrWrites, hsp] at he
  case ldBcd | storeRegs =>
    have hi : s₂.i = s₁.i := h .i (.inl rfl)
    simpa only [instrWrites, inIndexRange, indexAddr, hi] using he
  all_goals exact he

/-- What neither body may write keeps its two values. -/
theorem sameEffect_of_onWrites {i : Instr} {s₁ s₂ : State} (hw : ∀ e, instrWrites i s₂ e → instrWrites i s₁ e)
    (h : SameEffectOnWrites i s₁ s₂ (exec i s₁) (exec i s₂)) : SameEffect s₁ s₂ (exec i s₁) (exec i s₂) := by
  cases h₁ : exec i s₁ <;> cases h₂ : exec i s₂ <;> rw [h₁, h₂] at h
  case next.next t₁ t₂ =>
    intro e
    by_cases he : instrWrites i s₁ e
    · exact h e he
    · exact .inr ⟨exec_changesOnly h₁ e he, exec_changesOnly h₂ e fun he₂ => he (hw e he₂)⟩
  all_goals exact h

theorem exec_sameEffectOnWrites {i : Instr} {s₁ s₂ : State} (h : ∀ e, instrReads i s₁ e → e.same s₁ s₂) :
    SameEffectOnWrites i s₁ s₂ (exec i s₁) (exec i s₂) := by
  cases i
  case cls =>
    rintro e ⟨px, py, rfl⟩
    exact .inl rfl
  case jp | jpV0 =>
    simp only [instrReads, forall_eq, Element.same] at h
    rintro e rfl
    simp [Element.same, offsetTarget, h]
  case seImm | sneImm | seReg | sneReg | skp | sknp =>
    simp only [instrReads, forall_eq_or_imp, forall_eq, Element.same] at h
    obtain ⟨hpc, hc⟩ := h
    rintro e rfl
    exact .inl (State.skipIf_pc_congr hpc (by simp only [hc]))
  case ldImm | addImm | ldReg | orReg | andReg | xorReg | ldVxDt =>
    simp only [instrReads, forall_eq_or_imp, forall_eq, Element.same] at h
    rintro e rfl
    simp [Element.same, h]
  case addReg | subReg | subnReg =>
    simp only [instrReads, forall_eq_or_imp, forall_eq, Element.same] at h
    intro e he
    exact .inl (setV_flag_same (by simp only [h]) (by simp [State.getV_setV, h]) he)
  case shr | shl =>
    simp only [instrReads, forall_eq, Element.same] at h
    simp only [exec_shr, exec_shl]
    intro e he
    exact .inl (setV_flag_same (by simp [shiftSource, h]) (by simp [shiftSource, State.getV_setV, h]) he)
  case rnd x kk =>
    have hrnd : Element.rnd.same s₁ s₂ := h .rnd rfl
    rintro e (rfl | rfl)
    · simp [Element.same, State.nextRnd_congr hrnd]
    · exact .inl (State.useRnd_same hrnd)
  case ldI | addI | ldFont =>
    simp only [instrReads, forall_eq_or_imp, forall_eq, Element.same] at h
    rintro e rfl
    simp [Element.same, indexSum, h]
  case ldDtVx | ldStVx =>
    simp only [instrReads, forall_eq, Element.same] at h
    rintro e rfl
    simp [Element.same, h]
  case ldVxKey x =>
    have hpc : s₂.pc = s₁.pc := h .pc (.inl rfl)
    have hkey : s₂.lowestKeyDown = s₁.lowestKeyDown :=
      State.lowestKeyDown_congr fun k => h (.key k) (.inr ⟨k, rfl⟩)
    cases hk : s₁.lowestKeyDown with
    | none =>
      rw [exec_ldVxKey_none x s₁ hk, exec_ldVxKey_none x s₂ (hkey.trans hk)]
      rintro e (rfl | rfl)
      · exact .inr ⟨rfl, rfl⟩
      · exact .inl (congrArg (· - 2) hpc)
    | some k =>
      rw [exec_ldVxKey_some x s₁ k hk, exec_ldVxKey_some x s₂ k (hkey.trans hk)]
      rintro e (rfl | rfl)
      · simp [Element.same]
      · exact .inl hpc
  case ret =>
    have hsp : s₂.sp = s₁.sp := h .sp (.inl rfl)
    by_cases hz : s₁.sp.val = 0
    · rw [exec_ret_empty s₁ hz, exec_ret_empty s₂ (by rw [hsp, hz])]
      rfl
    · have hj : s₁.sp.val = (⟨s₁.sp.val - 1, by omega⟩ : Fin 16).val + 1 := (Nat.succ_pred hz).symm
      have hra := h (.stack _) (.inr ⟨_, hj.symm, rfl⟩)
      rw [exec_ret_pops s₁ _ hj, exec_ret_pops s₂ _ (by rw [hsp]; exact hj)]
      rintro e (rfl | rfl)
      · exact .inl hra
      · exact .inl rfl
  case call nnn =>
    have hsp : s₂.sp = s₁.sp := h .sp (.inl rfl)
    have hpc : s₂.pc = s₁.pc := h .pc (.inr rfl)
    by_cases hroom : s₁.sp.val < 16
    · rw [exec_call_pushes nnn s₁ hroom, exec_call_pushes nnn s₂ (hsp ▸ hroom)]
      rintro e (rfl | rfl | ⟨j, hj, rfl⟩)
      · exact .inl rfl
      · simp [Element.same, hsp]
      · simp [Element.same, State.getStack, hj, hsp, hpc]
    · rw [exec_call_full nnn s₁ (by omega), exec_call_full nnn s₂ (by omega)]
      rfl
  case drw x y n =>
    have hi : s₂.i = s₁.i := h .i (.inl rfl)
    have hx : s₂.getV x = s₁.getV x := h (.v x) (.inr (.inl rfl))
    have hy : s₂.getV y = s₁.getV y := h (.v y) (.inr (.inr (.inl rfl)))
    have hfb : s₂.fb = s₁.fb :=
      framebuffer_ext fun px py => h (.pixel px py) (.inr (.inr (.inr (.inl ⟨px, py, rfl⟩))))
    have hsprite : spriteBytes s₂ n = spriteBytes s₁ n :=
      spriteBytes_congr hi fun r hr => h (.mem _) (.inr (.inr (.inr (.inr ⟨r, hr, rfl⟩))))
    by_cases hin : n = 0 ∨ s₁.i.toNat + n ≤ 4096
    · rw [exec_drw_inside x y n s₁ hin, exec_drw_inside x y n s₂ (hi ▸ hin), hsprite]
      intro e he
      refine .inl (drawSprite_same x y _ ?_ ?_ ?_ ?_ he) <;> simp [State.getV_setV, hx, hy, hfb]
    · rw [exec_drw_outside x y n s₁ (by omega) (by omega), exec_drw_outside x y n s₂ (by omega) (by rw [hi]; omega), hi]
      rfl
  case ldBcd x =>
    have hi : s₂.i = s₁.i := h .i (.inl rfl)
    have hx : s₂.getV x = s₁.getV x := h (.v x) (.inr rfl)
    by_cases hin : s₁.i.toNat + 2 < 4096
    · rw [exec_ldBcd_inside x s₁ hin, exec_ldBcd_inside x s₂ (hi ▸ hin), hi, hx]
      rintro e ⟨a, ⟨hlo, hhi⟩, rfl⟩
      exact .inl (Memory.read_writeBytes_congr _ hlo (Nat.lt_succ_of_le hhi))
    · rw [exec_ldBcd_outside x s₁ (by omega), exec_ldBcd_outside x s₂ (by rw [hi]; omega), hi]
      rfl
  case storeRegs x =>
    have hi : s₂.i = s₁.i := h .i (.inl rfl)
    have hbytes : (regBlock x).map s₂.getV = (regBlock x).map s₁.getV :=
      regBlock_bytes_congr fun r hr => h (.v r) (.inr ⟨r, hr, rfl⟩)
    by_cases hin : s₁.i.toNat + x.val < 4096
    · rw [exec_storeRegs_inside x s₁ hin, exec_storeRegs_inside x s₂ (hi ▸ hin), hi, hbytes]
      rintro e ⟨a, ⟨hlo, hhi⟩, rfl⟩
      refine .inl (Memory.read_writeBytes_congr _ hlo ?_)
      rw [List.length_map, regBlock_length]
      exact Nat.lt_succ_of_le hhi
    · rw [exec_storeRegs_outside x s₁ (by omega), exec_storeRegs_outside x s₂ (by rw [hi]; omega), hi]
      rfl
  case loadRegs x =>
    have hi : s₂.i = s₁.i := h .i (.inl rfl)
    by_cases hin : s₁.i.toNat + x.val < 4096
    · obtain ⟨v₁, he₁, hv₁⟩ := exec_loadRegs_inside x s₁ hin
      obtain ⟨v₂, he₂, hv₂⟩ := exec_loadRegs_inside x s₂ (hi ▸ hin)
      rw [he₁, he₂]
      rintro e ⟨r, hr, rfl⟩
      have hm := h (.mem (s₁.i.toNat + r.val)) (.inr ⟨_, ⟨Nat.le_add_right _ _, Nat.add_le_add_left hr _⟩, rfl⟩)
      have h₁ := (hv₁ r).trans (if_pos hr)
      have h₂ := (hv₂ r).trans (if_pos hr)
      rw [hi] at h₂
      exact .inl (h₂.trans (hm.trans h₁.symm))
    · rw [exec_loadRegs_outside x s₁ (by omega), exec_loadRegs_outside x s₂ (by rw [hi]; omega), hi]
      rfl

/-- Settles O58: from two states that agree on what an instruction reads, its body writes the same values
(`exec_sameEffectOnWrites`) to the same elements (`instrWrites_congr`) and nothing else (`exec_changesOnly`). -/
theorem instructionsReadOnlyTheirElements : Obligations.InstructionsReadOnlyTheirElements := by
  unfold Obligations.InstructionsReadOnlyTheirElements
  exact fun _ _ _ h => sameEffect_of_onWrites (instrWrites_congr h) (exec_sameEffectOnWrites h)

end Sys2Proof.Machine
end

section
/-! The flat store (20_memory.md): the two byte accesses, the canonical form as the only list of its bytes, and the
fetch of the bytes an instruction stored. -/

namespace Sys2Proof.Machine

/-! ## The canonical form -/

/-- An address that does not read as blank is listed, with the byte it reads as. -/
theorem Memory.mem_of_read_ne_blank {m : Memory} {a : Nat} (h : m.read a ≠ Memory.blank a) : (a, m.read a) ∈ m := by
  induction m with
  | nil => exact absurd rfl h
  | cons c rest ih =>
    obtain ⟨b, u⟩ := c
    by_cases hb : b = a
    · subst hb
      simp [Memory.read]
    · simp only [Memory.read, if_neg hb] at h ⊢
      exact List.mem_cons_of_mem _ (ih h)

/-- With addresses rising, no cell hides another. -/
theorem Memory.read_of_mem {m : Memory} {a : Nat} {w : Byte} (hs : m.Pairwise fun c d => c.1 < d.1)
    (h : (a, w) ∈ m) : m.read a = w := by
  induction m with
  | nil => simp at h
  | cons c rest ih =>
    obtain ⟨hc, hr⟩ := List.pairwise_cons.mp hs
    obtain rfl | h := List.mem_cons.mp h
    · exact if_pos rfl
    · exact (if_neg (hc _ h).ne).trans (ih hr h)

/-- The cells of a canonical memory are its bytes that differ from the blank ones. -/
theorem Memory.mem_iff_read {m : Memory} (hm : m.wf) (a : Nat) (w : Byte) :
    (a, w) ∈ m ↔ m.read a = w ∧ w ≠ Memory.blank a := by
  obtain ⟨hs, hcells⟩ := hm
  constructor
  · intro h
    exact ⟨Memory.read_of_mem hs h, (hcells _ h).2⟩
  · rintro ⟨rfl, hw⟩
    exact Memory.mem_of_read_ne_blank hw

/-- Settles O36: both lists have the same cells (`Memory.mem_iff_read`), in the one order of rising addresses. -/
theorem equalMemoriesAreEqualLists : Obligations.EqualMemoriesAreEqualLists := by
  unfold Obligations.EqualMemoriesAreEqualLists
  intro m n hm hn h
  have : Std.Irrefl fun c d : Host.Cell => c.1 < d.1 := ⟨fun c => Nat.lt_irrefl c.1⟩
  have : Std.Antisymm fun c d : Host.Cell => c.1 < d.1 := ⟨fun _ _ hcd hdc => absurd hdc hcd.asymm⟩
  refine hm.1.eq_of_mem_iff hn.1 fun ⟨a, w⟩ => ?_
  rw [Memory.mem_iff_read hm, Memory.mem_iff_read hn, h]

/-! ## The byte accesses -/

theorem changesOnly_write (s : State) (a : Nat) (b : Byte) :
    ChangesOnly (fun e => e = .mem a) s { s with mem := s.mem.write a b } := by
  refine (changesOnly_writeBytes s a [b]).mono ?_
  rintro e ⟨k, hlo, hhi, rfl⟩
  exact congrArg Element.mem (Nat.le_antisymm (Nat.le_of_lt_succ hhi) hlo)

/-- Settles O35: the bound of the two accesses, and the frame of a write (`changesOnly_write`). -/
theorem memoryPrimitives : Obligations.MemoryPrimitives := by
  unfold Obligations.MemoryPrimitives
  intro s a b
  constructor
  · intro ha
    have ha : a < 4096 := Nat.lt_succ_of_le ha
    exact ⟨s.memRead_inside ha, _, s.memWrite_inside b ha, Memory.read_write_same .., changesOnly_write s a b⟩
  · intro ha
    exact ⟨s.memRead_outside ha, s.memWrite_outside b ha⟩

/-! ## What a body leaves in memory -/

/-- The three digits of Fx33. Their addresses differ, so the last write and the first match agree. -/
theorem Memory.read_writeBytes_bcdDigits_eq_memAfter (s : State) (x : RegIdx) (a : Nat) :
    (s.mem.writeBytes s.i.toNat (bcdDigits (s.getV x))).read a = memAfter (.ldBcd x) s a := by
  simp only [bcdDigits, Memory.writeBytes, Memory.read_write, memAfter]
  grind

theorem regBlock_getElem {x r : RegIdx} (hr : r ≤ x) (h : r.val < (regBlock x).length) : (regBlock x)[r.val] = r :=
  (List.getElem_eq_iff h).mpr (regBlock_get x r hr)

/-- `V[r]` lands at `I + r`. -/
theorem Memory.read_writeBytes_regBlock (s : State) {x r : RegIdx} (hr : r ≤ x) :
    (s.mem.writeBytes s.i.toNat ((regBlock x).map s.getV)).read (s.i.toNat + r.val) = s.getV r := by
  have hlen : r.val < (regBlock x).length := by rw [regBlock_length]; exact Nat.lt_succ_of_le hr
  rw [Memory.read_writeBytes_inside _ _ _ _ (by rwa [List.length_map]), List.getElem_map, regBlock_getElem hr hlen]

theorem memAfter_storeRegs_inside (s : State) {x r : RegIdx} (hr : r ≤ x) :
    memAfter (.storeRegs x) s (s.i.toNat + r.val) = s.getV r := by
  simp [memAfter, hr]

theorem memAfter_storeRegs_outside (s : State) {x : RegIdx} {a : Nat} (h : a < s.i.toNat ∨ s.i.toNat + x.val < a) :
    memAfter (.storeRegs x) s a = s.mem.read a :=
  dif_neg (by omega)

/-- The registers of Fx55. -/
theorem Memory.read_writeBytes_regBlock_eq_memAfter (s : State) (x : RegIdx) (a : Nat) :
    (s.mem.writeBytes s.i.toNat ((regBlock x).map s.getV)).read a = memAfter (.storeRegs x) s a := by
  by_cases h : a < s.i.toNat ∨ s.i.toNat + x.val < a
  · rw [memAfter_storeRegs_outside s h, Memory.read_writeBytes_outside]
    rw [List.length_map, regBlock_length]
    omega
  · obtain ⟨k, rfl⟩ := Nat.exists_eq_add_of_le (show s.i.toNat ≤ a by omega)
    have hk : k ≤ x.val := by omega
    have hr : (⟨k, by omega⟩ : RegIdx) ≤ x := hk
    exact (Memory.read_writeBytes_regBlock s hr).trans (memAfter_storeRegs_inside s hr).symm

/-- `memAfter` is the memory a body leaves: the two that store as 43_index_memory.md R153 and R154 say, and every
other has no byte of memory in its frame. -/
theorem exec_read_eq_memAfter {i : Instr} {s t : State} (h : exec i s = .next t) (a : Nat) :
    t.mem.read a = memAfter i s a := by
  cases i
  case ldBcd x =>
    by_cases hi : s.i.toNat + 2 < 4096
    · rw [exec_ldBcd_inside x s hi] at h
      cases h
      exact Memory.read_writeBytes_bcdDigits_eq_memAfter s x a
    · rw [exec_ldBcd_outside x s (by omega)] at h
      cases h
  case storeRegs x =>
    by_cases hi : s.i.toNat + x.val < 4096
    · rw [exec_storeRegs_inside x s hi] at h
      cases h
      exact Memory.read_writeBytes_regBlock_eq_memAfter s x a
    · rw [exec_storeRegs_outside x s (by omega)] at h
      cases h
  all_goals exact exec_changesOnly h (.mem a) (by simp [instrWrites])

/-! ## The fetch -/

theorem wordOfBytes_toNat (hi lo : Byte) : (wordOfBytes hi lo).toNat = 256 * hi.toNat + lo.toNat := by
  rw [wordOfBytes, BitVec.toNat_append, Nat.shiftLeft_eq, Nat.mul_comm]
  exact (Nat.two_pow_add_eq_or_of_lt lo.isLt hi.toNat).symm

theorem step_illegal (s : State) (e : DecodeError) (hf : s.fault = none) (hp : s.pc.toNat + 1 < 4096)
    (hd : decode s.wordAtPc = .error e) : step s = .fault (.invalidOpcode s.wordAtPc) := by
  simp only [step, hf, s.fetch_inside hp, ← State.wordAtPc.eq_1, hd, raise]

/-- A core that holds the memory a body left reads that body's bytes as its word. -/
theorem wordAtPc_toNat_of_exec {i : Instr} {s t u : State} (h : exec i s = .next t) (hm : u.mem = t.mem) :
    u.wordAtPc.toNat = 256 * (memAfter i s u.pc.toNat).toNat + (memAfter i s (u.pc.toNat + 1)).toNat := by
  rw [State.wordAtPc, hm, wordOfBytes_toNat, exec_read_eq_memAfter h, exec_read_eq_memAfter h]

/-- Settles O37: the word at `pc` is made of the bytes the body left (`wordAtPc_toNat_of_exec`), and the step runs it
or reports it. -/
theorem storedBytesAreFetchedNext : Obligations.StoredBytesAreFetchedNext := by
  unfold Obligations.StoredBytesAreFetchedNext
  intro i s t u h hm hf hpc opw hopw
  have hp : u.pc.toNat + 1 < 4096 := Nat.succ_lt_succ hpc
  obtain rfl : opw = u.wordAtPc := BitVec.eq_of_toNat_eq (hopw.trans (wordAtPc_toNat_of_exec h hm).symm)
  exact ⟨fun j hj => step_runs u j hf hp hj, fun e he => step_illegal u e hf hp he⟩

end Sys2Proof.Machine
end

section
/-! The decoder, the encoder and the opcode map (30_encoding.md R82 to R89): the fields of an encoded word, a word
put together from its fields, a row's mask as a test of fields, and from these O2 to O5 and O1. -/

namespace Sys2Proof

/-! ## The fields of an encoded word -/

@[simp] theorem fields_encodeNNN (op1 : Nat) (nnn : BitVec 12) (h : op1 < 16) :
    fieldOp1 (encodeNNN op1 nnn) = op1 ∧ fieldNNN (encodeNNN op1 nnn) = nnn := by
  have hn := nnn.isLt
  refine ⟨?_, BitVec.eq_of_toNat_eq ?_⟩
  · rw [fieldOp1_eq, encodeNNN_toNat _ _ h]
    omega
  · rw [fieldNNN_toNat, encodeNNN_toNat _ _ h]
    omega

@[simp] theorem fields_encodeXKK (op1 : Nat) (x : RegIdx) (kk : Byte) (h : op1 < 16) :
    fieldOp1 (encodeXKK op1 x kk) = op1 ∧ fieldX (encodeXKK op1 x kk) = x ∧ fieldKK (encodeXKK op1 x kk) = kk := by
  have hk := kk.isLt
  refine ⟨?_, Fin.ext ?_, BitVec.eq_of_toNat_eq ?_⟩
  · rw [fieldOp1_eq, encodeXKK_toNat _ _ _ h]
    omega
  · rw [fieldX_val, encodeXKK_toNat _ _ _ h]
    omega
  · rw [fieldKK_toNat, encodeXKK_toNat _ _ _ h]
    omega

@[simp] theorem fields_encodeXYN (op1 : Nat) (x y : RegIdx) (op4 : Nat) (h : op1 < 16) (h4 : op4 < 16) :
    fieldOp1 (encodeXYN op1 x y op4) = op1 ∧ fieldX (encodeXYN op1 x y op4) = x ∧
      fieldY (encodeXYN op1 x y op4) = y ∧ fieldN (encodeXYN op1 x y op4) = op4 := by
  refine ⟨?_, Fin.ext ?_, Fin.ext ?_, ?_⟩
  · rw [fieldOp1_eq, encodeXYN_toNat _ _ _ _ h h4]
    omega
  · rw [fieldX_val, encodeXYN_toNat _ _ _ _ h h4]
    omega
  · rw [fieldY_val, encodeXYN_toNat _ _ _ _ h h4]
    omega
  · rw [fieldN_eq, encodeXYN_toNat _ _ _ _ h h4]
    omega

@[simp] theorem fields_encodeX (op1 : Nat) (x : RegIdx) (low : Nat) (h : op1 < 16) (hl : low < 256) :
    fieldOp1 (encodeX op1 x low) = op1 ∧ fieldX (encodeX op1 x low) = x ∧ slice (encodeX op1 x low) 7 0 = low := by
  refine ⟨?_, Fin.ext ?_, ?_⟩
  · rw [fieldOp1_eq, encodeX_toNat _ _ _ h hl]
    omega
  · rw [fieldX_val, encodeX_toNat _ _ _ h hl]
    omega
  · rw [slice_low_byte, encodeX_toNat _ _ _ h hl]
    omega

/-! ## A word is the encoding of its fields -/

theorem fieldOp1_lt (w : Word) : fieldOp1 w < 16 := Nat.mod_lt _ (by decide)

theorem fieldN_lt (w : Word) : fieldN w < 16 := Nat.mod_lt _ (by decide)

theorem encodeNNN_of_fields {w : Word} {op1 : Nat} (h : fieldOp1 w = op1) : encodeNNN op1 (fieldNNN w) = w := by
  subst h
  apply BitVec.eq_of_toNat_eq
  rw [encodeNNN_toNat _ _ (fieldOp1_lt w), fieldOp1_eq, fieldNNN_toNat]
  omega

theorem encodeXKK_of_fields {w : Word} {op1 : Nat} (h : fieldOp1 w = op1) :
    encodeXKK op1 (fieldX w) (fieldKK w) = w := by
  subst h
  apply BitVec.eq_of_toNat_eq
  rw [encodeXKK_toNat _ _ _ (fieldOp1_lt w), fieldOp1_eq, fieldX_val, fieldKK_toNat]
  omega

theorem encodeXYN_of_fields {w : Word} {op1 op4 : Nat} (h : fieldOp1 w = op1) (h4 : fieldN w = op4) :
    encodeXYN op1 (fieldX w) (fieldY w) op4 = w := by
  subst h h4
  apply BitVec.eq_of_toNat_eq
  rw [encodeXYN_toNat _ _ _ _ (fieldOp1_lt w) (fieldN_lt w), fieldOp1_eq, fieldX_val, fieldY_val, fieldN_eq]
  omega

theorem encodeX_of_fields {w : Word} {op1 low : Nat} (h : fieldOp1 w = op1) (hl : slice w 7 0 = low) :
    encodeX op1 (fieldX w) low = w := by
  subst h hl
  apply BitVec.eq_of_toNat_eq
  rw [slice_low_byte, encodeX_toNat _ _ _ (fieldOp1_lt w) (Nat.mod_lt _ (by decide)), fieldOp1_eq, fieldX_val]
  omega

/-- A word of group 0 is its low twelve bits. -/
theorem ofNat_slice_of_group0 {w : Word} {low : Nat} (h : fieldOp1 w = 0) (hl : slice w 11 0 = low) :
    BitVec.ofNat 16 low = w := by
  subst hl
  apply BitVec.eq_of_toNat_eq
  rw [fieldOp1_eq] at h
  rw [slice_low_twelve, BitVec.toNat_ofNat]
  omega

/-! ## Decode after encode -/

theorem decode_encode {i : Instr} (h : i.wellFormed = true) : decode (encode i) = .ok i := by
  cases i
  case cls | ret => rfl
  case jp | call | seImm | sneImm | seReg | ldImm | addImm | sneReg | ldI | jpV0 | rnd => simp [encode, decode]
  case ldReg | orReg | andReg | xorReg | addReg | subReg | shr | subnReg | shl => simp [encode, decode, decode8]
  case drw x y n =>
    have hn : n < 16 := of_decide_eq_true h
    simp [encode, decode, hn]
  case skp | sknp => simp [encode, decode, decodeE]
  case ldVxDt | ldVxKey | ldDtVx | ldStVx | addI | ldFont | ldBcd | storeRegs | loadRegs =>
    simp [encode, decode, decodeF]

/-- The two bytes of a word decode as the word does (20_memory.md R55). -/
theorem decodeBytes_high_low {w : Word} {i : Instr} (h : decode w = .ok i) (rest : List Byte) :
    decodeBytes (highByte w :: lowByte w :: rest) = .ok (i, rest) := by
  simp only [decodeBytes, wordOfBytes_high_low, h]

/-- Settles O2: each format gives its fields back (`fields_encodeNNN` and the others), and the decoder reads the
instruction off them (`decode_encode`). -/
theorem decodeEncodeRoundTrip : Obligations.DecodeEncodeRoundTrip := by
  unfold Obligations.DecodeEncodeRoundTrip
  intro i h
  exact ⟨decode_encode h, decodeBytes_high_low (decode_encode h)⟩

/-! ## Encode after decode -/

theorem encode_decode0 {w : Word} {i : Instr} (hop : fieldOp1 w = 0) (h : decode0 w = .ok i) :
    i.wellFormed = true ∧ encode i = w := by
  unfold decode0 at h
  split at h
  case h_3 => cases h
  all_goals
    cases h
    exact ⟨rfl, ofNat_slice_of_group0 hop ‹_›⟩

theorem encode_decode8 {w : Word} {i : Instr} (hop : fieldOp1 w = 8) (h : decode8 w = .ok i) :
    i.wellFormed = true ∧ encode i = w := by
  unfold decode8 at h
  split at h
  case h_10 => cases h
  all_goals
    cases h
    exact ⟨rfl, encodeXYN_of_fields hop ‹_›⟩

theorem encode_decodeE {w : Word} {i : Instr} (hop : fieldOp1 w = 14) (h : decodeE w = .ok i) :
    i.wellFormed = true ∧ encode i = w := by
  unfold decodeE at h
  split at h
  case h_3 => cases h
  all_goals
    cases h
    exact ⟨rfl, encodeX_of_fields hop ‹_›⟩

theorem encode_decodeF {w : Word} {i : Instr} (hop : fieldOp1 w = 15) (h : decodeF w = .ok i) :
    i.wellFormed = true ∧ encode i = w := by
  unfold decodeF at h
  split at h
  case h_10 => cases h
  all_goals
    cases h
    exact ⟨rfl, encodeX_of_fields hop ‹_›⟩

/-- A group whose only instruction needs a low nibble of 0 (5xy0, 9xy0). -/
theorem eq_of_decode_zero_nibble {w : Word} {i j : Instr}
    (h : (if fieldN w = 0 then .ok j else .error (.invalidOpcode w) : Except DecodeError Instr) = .ok i) :
    fieldN w = 0 ∧ j = i := by
  split at h
  · exact ⟨‹_›, Except.ok.inj h⟩
  · cases h

theorem encode_decode {w : Word} {i : Instr} (h : decode w = .ok i) : i.wellFormed = true ∧ encode i = w := by
  unfold decode at h
  split at h
  case h_1 hop => exact encode_decode0 hop h
  case h_9 hop => exact encode_decode8 hop h
  case h_15 hop => exact encode_decodeE hop h
  case h_16 hop => exact encode_decodeF hop h
  case h_17 => cases h
  case h_6 hop | h_10 hop =>
    obtain ⟨hn, rfl⟩ := eq_of_decode_zero_nibble h
    exact ⟨rfl, encodeXYN_of_fields hop hn⟩
  case h_14 hop =>
    cases h
    exact ⟨decide_eq_true (fieldN_lt w), encodeXYN_of_fields hop rfl⟩
  case h_2 hop | h_3 hop | h_11 hop | h_12 hop =>
    cases h
    exact ⟨rfl, encodeNNN_of_fields hop⟩
  case h_4 hop | h_5 hop | h_7 hop | h_8 hop | h_13 hop =>
    cases h
    exact ⟨rfl, encodeXKK_of_fields hop⟩

/-- Settles O3: in every branch of the decoder the word is the encoding of the fields it read (`encode_decode`). -/
theorem encodeDecodeRoundTrip : Obligations.EncodeDecodeRoundTrip := by
  unfold Obligations.EncodeDecodeRoundTrip
  intro w i
  exact encode_decode

/-! ## The rows of the opcode map as tests of fields -/

theorem matches_F000_iff_fields (m : String) (p w : Word) (hp : p.toNat % 4096 = 0) :
    (OpcodeRow.mk m 0xF000 p).matches w = true ↔ fieldOp1 w = p.toNat / 4096 := by
  rw [matches_F000, fieldOp1_eq]
  omega

theorem matches_F00F_iff_fields (m : String) (p w : Word) (hp : p.toNat % 4096 < 16) :
    (OpcodeRow.mk m 0xF00F p).matches w = true ↔
      fieldOp1 w = p.toNat / 4096 ∧ fieldN w = p.toNat % 16 := by
  rw [matches_F00F, fieldOp1_eq, fieldN_eq]
  omega

theorem matches_F0FF_iff_fields (m : String) (p w : Word) (hp : p.toNat % 4096 < 256) :
    (OpcodeRow.mk m 0xF0FF p).matches w = true ↔
      fieldOp1 w = p.toNat / 4096 ∧ slice w 7 0 = p.toNat % 256 := by
  rw [matches_F0FF, fieldOp1_eq, slice_low_byte]
  omega

theorem matches_FFFF_iff_fields (m : String) (p w : Word) (hp : p.toNat < 4096) :
    (OpcodeRow.mk m 0xFFFF p).matches w = true ↔ fieldOp1 w = 0 ∧ slice w 11 0 = p.toNat := by
  rw [matches_FFFF, fieldOp1_eq, slice_low_twelve]
  omega

/-! ## The decoder and the opcode map -/

theorem Instr.ctorIdx_lt_length (i : Instr) : i.ctorIdx < opcodeTable.length := by
  cases i <;> exact of_decide_eq_true rfl

/-- The row of an instruction: the constructors stand in the table's order (30_encoding.md R86). -/
def Instr.row (i : Instr) : OpcodeRow := opcodeTable[i.ctorIdx]'(i.ctorIdx_lt_length)

theorem Instr.row_mem (i : Instr) : i.row ∈ opcodeTable := List.getElem_mem _

theorem Instr.row_mnemonic (i : Instr) : i.row.mnemonic = i.mnemonic := by cases i <;> rfl

/-- An instruction's word matches its row. -/
theorem Instr.row_matches_encode {i : Instr} (h : i.wellFormed = true) : i.row.matches (encode i) = true := by
  cases i
  case cls | ret => rfl
  case jp | call | ldI | jpV0 | seImm | sneImm | ldImm | addImm | rnd =>
    exact (matches_F000_iff_fields _ _ _ (by decide)).mpr (by simp [encode])
  case drw x y n =>
    have hn : n < 16 := of_decide_eq_true h
    exact (matches_F000_iff_fields _ _ _ (by decide)).mpr (by simp [encode, hn])
  case seReg | sneReg | ldReg | orReg | andReg | xorReg | addReg | subReg | shr | subnReg | shl =>
    exact (matches_F00F_iff_fields _ _ _ (by decide)).mpr (by simp [encode])
  case skp | sknp | ldVxDt | ldVxKey | ldDtVx | ldStVx | addI | ldFont | ldBcd | storeRegs | loadRegs =>
    exact (matches_F0FF_iff_fields _ _ _ (by decide)).mpr (by simp [encode])

/-- A word that matches a row decodes to an instruction of its mnemonic: per row, the fields its mask tests select
the branch of the decoder. -/
theorem decode_of_matches {w : Word} {r : OpcodeRow} (hr : r ∈ opcodeTable) (h : r.matches w = true) :
    ∃ i, decode w = .ok i ∧ i.mnemonic = r.mnemonic := by
  unfold opcodeTable at hr
  fin_cases hr
  all_goals
    simp only [↓matches_F000_iff_fields, ↓matches_F00F_iff_fields, ↓matches_F0FF_iff_fields,
      ↓matches_FFFF_iff_fields, BitVec.reduceToNat, Nat.reduceMod, Nat.reduceDiv, Nat.reduceLT] at h
    simp [decode, decode0, decode8, decodeE, decodeF, h, Instr.mnemonic]

/-- Settles O4: a decoded word is the encoding of its instruction, which matches that instruction's row
(`Instr.row_matches_encode`); and a row's mask selects its branch of the decoder (`decode_of_matches`). -/
theorem decodeAgreesWithOpcodeTable : Obligations.DecodeAgreesWithOpcodeTable := by
  unfold Obligations.DecodeAgreesWithOpcodeTable
  intro w
  refine ⟨fun i hi => ?_, fun r hr h => decode_of_matches hr h⟩
  obtain ⟨hwf, rfl⟩ := encode_decode hi
  exact ⟨i.row, i.row_mem, i.row_mnemonic, i.row_matches_encode hwf⟩

/-! ## No two rows match one word -/

/-- Two rows disagree on a literal bit they share: no word can be as both have it. -/
def OpcodeRow.disjoint (r q : OpcodeRow) : Prop := r.pattern &&& q.mask ≠ q.pattern &&& r.mask

theorem OpcodeRow.not_disjoint_of_matches {r q : OpcodeRow} {w : Word} (hr : r.matches w = true)
    (hq : q.matches w = true) : ¬ r.disjoint q := by
  rw [OpcodeRow.matches, beq_iff_eq] at hr hq
  rw [OpcodeRow.disjoint, ← hr, ← hq, not_not, BitVec.and_assoc, BitVec.and_assoc, BitVec.and_comm r.mask]

theorem opcodeTable_pairwise_disjoint : opcodeTable.Pairwise OpcodeRow.disjoint := by
  unfold OpcodeRow.disjoint
  decide

/-- Settles O5: any two rows of the table disagree on a literal bit they share (`opcodeTable_pairwise_disjoint`). -/
theorem noWordMatchesTwoRows : Obligations.NoWordMatchesTwoRows := by
  unfold Obligations.NoWordMatchesTwoRows
  intro w r q hr hq hrw hqw
  by_contra hne
  have : Std.Symm OpcodeRow.disjoint := ⟨fun _ _ => Ne.symm⟩
  exact OpcodeRow.not_disjoint_of_matches hrw hqw
    (opcodeTable_pairwise_disjoint.forall hr hq hne)

/-! ## Sample words -/

/-- Settles O1: the decoder evaluates on the sixteen legal and the three illegal words. -/
theorem sampleWordsDecode : Obligations.SampleWordsDecode := by
  unfold Obligations.SampleWordsDecode
  decide

end Sys2Proof
end

section
/-! The step algorithm (30_encoding.md R84) case by case, and from it O7 and O8. -/

namespace Sys2Proof.Machine

/-! ## The fetch that leaves memory -/

theorem step_first_outside (s : State) (hf : s.fault = none) (hp : 4096 ≤ s.pc.toNat) :
    step s = .fault (.memoryOutOfBounds s.pc.toNat) := by
  simp only [step, hf, s.fetch_first_outside hp, raise]

theorem step_second_outside (s : State) (hf : s.fault = none) (hp : s.pc.toNat = 4095) :
    step s = .fault (.memoryOutOfBounds 4096) := by
  simp only [step, hf, s.fetch_second_outside hp, raise]

/-- Settles O7: one lemma per way the step can go, the word at `pc` being the one of its two bytes
(`wordOfBytes_toNat`). -/
theorem stepFollowsTheStepAlgorithm : Obligations.StepFollowsTheStepAlgorithm := by
  unfold Obligations.StepFollowsTheStepAlgorithm
  intro s
  refine ⟨step_halted s, step_first_outside s, step_second_outside s, fun hf hpc opw hopw => ?_⟩
  have hp : s.pc.toNat + 1 < 4096 := Nat.succ_lt_succ hpc
  obtain rfl : opw = s.wordAtPc := BitVec.eq_of_toNat_eq (hopw.trans (wordOfBytes_toNat _ _).symm)
  exact ⟨fun e he => step_illegal s e hf hp he, fun i hi => step_runs s i hf hp hi⟩

/-! ## No refusal -/

theorem exec_ne_refused (i : Instr) (s : State) (r : Refusal) : exec i s ≠ .refused r :=
  fun h => (h ▸ exec_bodyKeeps i s : s.BodyKeeps (.refused r))

/-- Settles O8: a step that does not fault is the body of an instruction, and no body is refused
(`exec_ne_refused`). -/
theorem stepNeverRefuses : Obligations.StepNeverRefuses := by
  unfold Obligations.StepNeverRefuses
  intro s r
  cases hf : s.fault with
  | some f => simp [step_halted s f hf]
  | none =>
    obtain hp | hp | hp : 4096 ≤ s.pc.toNat ∨ s.pc.toNat = 4095 ∨ s.pc.toNat + 1 < 4096 := by omega
    · simp [step_first_outside s hf hp]
    · simp [step_second_outside s hf hp]
    · cases hd : decode s.wordAtPc with
      | error e => simp [step_illegal s e hf hp hd]
      | ok i =>
        rw [step_runs s i hf hp hd]
        exact exec_ne_refused i s.advance r

end Sys2Proof.Machine
end

section
/-! Control transfer (40_flow.md R110 to R114): what a jump, a call and a return do, calls nested like brackets, and
the self-jump of a finished program. Settles O12 to O17. -/

namespace Sys2Proof.Machine

/-! ## Targets as numbers (40_flow.md R114: none is reduced) -/

theorem absTarget_toNat (nnn : BitVec 12) : (absTarget nnn).toNat = nnn.toNat :=
  BitVec.toNat_setWidth_of_le (by decide)

theorem offsetTarget_toNat (s : State) (nnn : BitVec 12) :
    (offsetTarget s nnn).toNat = nnn.toNat + (s.getV 0).toNat := by
  have hV : (zext16 (s.getV 0)).toNat = (s.getV 0).toNat := BitVec.toNat_setWidth_of_le (by decide)
  have := nnn.isLt
  have := (s.getV 0).isLt
  rw [offsetTarget, BitVec.toNat_add, absTarget_toNat, hV]
  omega

/-! ## One call, one return -/

/-- A call with room on the stack (40_flow.md R112). -/
theorem exec_call_of_room (nnn : BitVec 12) {s : State} {j : Fin 16} (hj : s.sp.val = j.val) :
    ∃ t, exec (.call nnn) s = .next t ∧ t.pc.toNat = nnn.toNat ∧ t.getStack j = s.pc ∧ t.sp.val = j.val + 1 ∧
      ChangesOnly (fun e => e = .pc ∨ e = .sp ∨ e = .stack j) s t := by
  have hcall := exec_call_pushes nnn s (hj ▸ j.isLt)
  refine ⟨_, hcall, absTarget_toNat nnn, ?_, congrArg (· + 1) hj, (exec_changesOnly hcall).mono ?_⟩
  · exact (s.getStack_set _ _ s.pc s.sp j).trans (if_pos hj.symm)
  · rintro e (rfl | rfl | ⟨k, hk, rfl⟩)
    · exact .inl rfl
    · exact .inr (.inl rfl)
    · exact .inr (.inr (congrArg Element.stack (Fin.ext (hk.trans hj))))

/-- A return with an entry in use (40_flow.md R110). -/
theorem exec_ret_of_entry {s : State} {j : Fin 16} (hj : s.sp.val = j.val + 1) :
    ∃ t, exec .ret s = .next t ∧ t.pc = s.getStack j ∧ t.sp.val = j.val ∧
      ChangesOnly (fun e => e = .pc ∨ e = .sp) s t :=
  ⟨_, exec_ret_pops s j hj, rfl, rfl, changesOnly_popped s _ _⟩

/-- Settles O14: the call with room (`exec_call_of_room`) and the call on a full stack. -/
theorem callPushesReturnAddress : Obligations.CallPushesReturnAddress := by
  unfold Obligations.CallPushesReturnAddress
  exact fun nnn s => ⟨fun _ hj => exec_call_of_room nnn hj, exec_call_full nnn s⟩

/-- Settles O15: the return with an entry (`exec_ret_of_entry`) and the return on an empty stack. -/
theorem returnPopsAddress : Obligations.ReturnPopsAddress := by
  unfold Obligations.ReturnPopsAddress
  exact fun s => ⟨fun _ hj => exec_ret_of_entry hj, exec_ret_empty s⟩

/-! ## Bodies one after the other -/

theorem execAll_cons_of_next {i : Instr} {s t : State} (h : exec i s = .next t) (is : List Instr) :
    execAll (i :: is) s = execAll is t := by
  rw [execAll, h]

theorem execAll_cons_of_fault {i : Instr} {s : State} {f : Fault} (h : exec i s = .fault f) (is : List Instr) :
    execAll (i :: is) s = .fault f := by
  rw [execAll, h]

theorem execAll_append_of_next {is : List Instr} {s t : State} (h : execAll is s = .next t) (js : List Instr) :
    execAll (is ++ js) s = execAll js t := by
  induction is generalizing s with
  | nil =>
    cases h
    rfl
  | cons i is ih =>
    cases hi : exec i s with
    | next u =>
      rw [execAll_cons_of_next hi] at h
      rw [List.cons_append, execAll_cons_of_next hi, ih h]
    | fault f => simp [execAll, hi] at h
    | refused r => simp [execAll, hi] at h

/-! ## Calls nested like brackets -/

/-- `t` differs from `s` at most in stack entries that `s` does not use. -/
abbrev State.RestoredIn (s t : State) : Prop :=
  ChangesOnly (fun e => ∃ j : Fin 16, s.sp.val ≤ j.val ∧ e = .stack j) s t

/-- One pair of brackets: the entry the call pushed is in use in `s₁`, so it is intact where `s₁` is restored, and a
return from there undoes the call. -/
theorem exec_ret_undoes_call {nnn : BitVec 12} {j : Fin 16} {s s₁ t₁ : State} (hj : s.sp.val = j.val)
    (hcall : exec (.call nnn) s = .next s₁) (hbody : s₁.RestoredIn t₁) :
    ∃ t, exec .ret t₁ = .next t ∧ s.RestoredIn t := by
  obtain ⟨u, hu, -, hra, hsp, hpushed⟩ := exec_call_of_room nnn hj
  obtain rfl : s₁ = u := Host.Outcome.next.inj (hcall.symm.trans hu)
  have hsp₁ : t₁.sp = s₁.sp := hbody .sp (by simp)
  have hra₁ : t₁.getStack j = s₁.getStack j := hbody (.stack j) (by simp [hsp])
  obtain ⟨t, hret, hpc, hsp', hpopped⟩ := exec_ret_of_entry (s := t₁) (j := j) (by rw [hsp₁, hsp])
  refine ⟨t, hret, fun e he => ?_⟩
  by_cases hpcsp : e = .pc ∨ e = .sp
  · obtain rfl | rfl := hpcsp
    · exact hpc.trans (hra₁.trans hra)
    · exact Fin.ext (hsp'.trans hj.symm)
  · have h₁ : e.same s s₁ := hpushed e fun h => by
      obtain h | h | rfl := h
      · exact hpcsp (.inl h)
      · exact hpcsp (.inr h)
      · exact he ⟨j, hj.le, rfl⟩
    have h₂ : e.same s₁ t₁ := hbody e fun ⟨k, hk, hek⟩ => he ⟨k, by omega, hek⟩
    exact Element.same_trans (Element.same_trans h₁ h₂) (hpopped e hpcsp)

/-- As many returns as calls: the innermost pair of brackets is restored first. -/
theorem execAll_calls_returns (targets : List (BitVec 12)) {s : State} (hroom : s.sp.val + targets.length ≤ 16) :
    ∃ t, execAll (targets.map Instr.call ++ List.replicate targets.length Instr.ret) s = .next t ∧
      s.RestoredIn t := by
  induction targets generalizing s with
  | nil => exact ⟨s, rfl, ChangesOnly.refl _ s⟩
  | cons nnn rest ih =>
    rw [List.length_cons] at hroom
    obtain ⟨j, hj⟩ : ∃ j : Fin 16, s.sp.val = j.val := ⟨⟨s.sp.val, by omega⟩, rfl⟩
    obtain ⟨s₁, hcall, -, -, hsp, -⟩ := exec_call_of_room nnn hj
    obtain ⟨t₁, hbody, hrestored⟩ := ih (s := s₁) (by rw [hsp]; omega)
    obtain ⟨t, hret, ht⟩ := exec_ret_undoes_call hj hcall hrestored
    refine ⟨t, ?_, ht⟩
    rw [List.map_cons, List.cons_append, List.length_cons, List.replicate_succ', ← List.append_assoc,
      execAll_cons_of_next hcall, execAll_append_of_next hbody, execAll_cons_of_next hret, execAll]

/-- The first call past the sixteenth entry overflows, whatever the targets. -/
theorem execAll_calls_overflow (targets : List (BitVec 12)) {s : State} (hfull : 16 < s.sp.val + targets.length) :
    execAll (targets.map Instr.call) s = .fault .stackOverflow := by
  induction targets generalizing s with
  | nil => exact absurd hfull (Nat.not_lt.mpr (Nat.le_of_lt_succ s.sp.isLt))
  | cons nnn rest ih =>
    rw [List.length_cons] at hfull
    by_cases hsp : s.sp.val = 16
    · exact execAll_cons_of_fault (exec_call_full nnn s hsp) _
    · obtain ⟨j, hj⟩ : ∃ j : Fin 16, s.sp.val = j.val := ⟨⟨s.sp.val, by omega⟩, rfl⟩
      obtain ⟨s₁, hcall, -, -, hsp₁, -⟩ := exec_call_of_room nnn hj
      rw [List.map_cons, execAll_cons_of_next hcall]
      exact ih (by rw [hsp₁]; omega)

/-- Settles O16: by induction on the targets, each call and its return a pair of brackets (`exec_ret_undoes_call`);
and a list too long reaches a call on a full stack. -/
theorem nestedCallsReturnInReverse : Obligations.NestedCallsReturnInReverse := by
  unfold Obligations.NestedCallsReturnInReverse
  exact fun targets _ => ⟨execAll_calls_returns targets, execAll_calls_overflow targets⟩

/-! ## Jumps -/

/-- A jump to its own address writes back the `pc` that the step had advanced (40_flow.md R111). -/
theorem step_selfJump {s : State} {nnn : BitVec 12} (h : s.about (.jp nnn)) (hpc : s.pc = absTarget nnn) :
    step s = .next s := by
  obtain ⟨hf, hp, hd⟩ := h
  rw [step_runs s (.jp nnn) hf hp hd, exec_jp, ← hpc]
  rfl

/-- Settles O12: the frame of a write to `pc`, and `step_selfJump`. -/
theorem jumpSetsPc : Obligations.JumpSetsPc := by
  unfold Obligations.JumpSetsPc
  intro nnn s
  refine ⟨⟨_, exec_jp nnn s, absTarget_toNat nnn, changesOnly_setPc s _⟩, fun h hpc => step_selfJump h ?_⟩
  exact BitVec.eq_of_toNat_eq (hpc.trans (absTarget_toNat nnn).symm)

/-- Settles O13: the jump completes with the sum in `pc` (`offsetTarget_toNat`), and the next step's fetch tests it. -/
theorem jumpWithOffsetAddsV0 : Obligations.JumpWithOffsetAddsV0 := by
  unfold Obligations.JumpWithOffsetAddsV0
  intro nnn s
  have hpc := offsetTarget_toNat s nnn
  refine ⟨_, exec_jpV0 nnn s, hpc, changesOnly_setPc s _, fun hf hsum => ?_, fun hf hsum => ?_⟩
  · rw [← hpc] at hsum ⊢
    exact step_first_outside (s.setPc _) hf hsum
  · exact step_second_outside (s.setPc _) hf (hpc.trans hsum)

/-- Settles O17: by induction on the number of steps, each of which answers the state itself (`step_selfJump`). -/
theorem selfJumpIsAFixedPoint : Obligations.SelfJumpIsAFixedPoint := by
  unfold Obligations.SelfJumpIsAFixedPoint
  rintro s n ⟨nnn, habout, hpc⟩
  have hstep : core.step s = .next s := step_selfJump habout hpc
  induction n with
  | zero => rfl
  | succ n ih =>
    simp only [Host.Core.run, hstep]
    exact ih

end Sys2Proof.Machine
end

section
/-! The register-compare skips (41_skip.md): a skip whose test is the equality of two bytes, or its complement.
Settles O18. -/

namespace Sys2Proof.Machine

theorem State.skipIf_beq (s : State) (a b : Byte) :
    s.skipIf (a == b) = if a = b then { s with pc := s.pc + 2 } else s := by
  simp only [State.skipIf, beq_iff_eq]
  rfl

/-- The complement of `State.skipIf_beq`: on the same two bytes one of the two skips and the other does not
(41_skip.md R121). -/
theorem State.skipIf_bne (s : State) (a b : Byte) :
    s.skipIf (a != b) = if a = b then s else { s with pc := s.pc + 2 } := by
  simp only [State.skipIf, bne_iff_ne, ne_eq, ite_not]
  rfl

/-- Settles O18: the SE forms skip on an equality of two bytes (`State.skipIf_beq`), the SNE forms on its complement
(`State.skipIf_bne`). -/
theorem registerSkips : Obligations.RegisterSkips := by
  unfold Obligations.RegisterSkips
  intro x y kk s
  refine ⟨?_, ?_, ?_, ?_⟩
  · rw [exec_seImm, s.skipIf_beq]
  · rw [exec_sneImm, s.skipIf_bne]
  · rw [exec_seReg, s.skipIf_beq]
  · rw [exec_sneReg, s.skipIf_bne]

end Sys2Proof.Machine
end

section
/-! Register, arithmetic, logic and random (42_alu.md R130 to R144): the flags as numbers, a result computed after its
flag is written, and the bodies. Settles O20 to O27. -/

namespace Sys2Proof.Machine

/-! ## The flags as numbers (42_alu.md R142) -/

theorem flagByte_decide_toNat (p : Prop) [Decidable p] : (flagByte (decide p)).toNat = if p then 1 else 0 := by
  by_cases hp : p <;> simp [flagByte, hp]

theorem carryFlag_toNat (a b : Byte) : (carryFlag a b).toNat = if a.toNat + b.toNat > 255 then 1 else 0 :=
  flagByte_decide_toNat _

theorem greaterFlag_toNat (a b : Byte) : (greaterFlag a b).toNat = if a.toNat > b.toNat then 1 else 0 :=
  flagByte_decide_toNat _

theorem lessFlag_toNat (a b : Byte) : (lessFlag a b).toNat = if a.toNat < b.toNat then 1 else 0 :=
  flagByte_decide_toNat _

theorem lowBitFlag_toNat (a : Byte) : (lowBitFlag a).toNat = a.toNat % 2 :=
  (BitVec.toNat_and a 1).trans (Nat.and_one_is_mod a.toNat)

theorem highBitFlag_toNat (a : Byte) : (highBitFlag a).toNat = a.toNat / 128 := by
  revert a
  decide

/-! ## A result written after its flag (42_alu.md R143) -/

theorem State.getV_vF_setV_flag (s : State) {x : RegIdx} (flag b : Byte) (hx : x ≠ vF) :
    ((s.setV vF flag).setV x b).getV vF = flag := by
  rw [State.getV_setV_ne _ _ hx.symm, State.getV_setV_same]

theorem State.getV_vF_setV_result (s : State) {x : RegIdx} (flag b : Byte) (hx : x = vF) :
    ((s.setV vF flag).setV x b).getV vF = b :=
  hx ▸ State.getV_setV_same _ x b

theorem State.toNat_result_and_flag (s : State) {x : RegIdx} {flag b : Byte} {m n : Nat} (hx : x ≠ vF)
    (hb : b.toNat = m) (hflag : flag.toNat = n) :
    (((s.setV vF flag).setV x b).getV x).toNat = m ∧ (((s.setV vF flag).setV x b).getV vF).toNat = n := by
  rw [State.getV_setV_same, State.getV_vF_setV_flag _ _ _ hx]
  exact ⟨hb, hflag⟩

/-- A difference computed after the flag is written reads the flag wherever an operand is VF (the spec's D1). -/
theorem toNat_sub_after_flag (s : State) (p q : RegIdx) (flag : Byte) :
    ((s.setV vF flag).getV p - (s.setV vF flag).getV q).toNat =
      ((if p = vF then flag.toNat else (s.getV p).toNat) + 256 -
        (if q = vF then flag.toNat else (s.getV q).toNat)) % 256 := by
  have hsub (a b : Byte) : (a - b).toNat = (a.toNat + 256 - b.toNat) % 256 := by
    have := b.isLt
    rw [BitVec.toNat_sub]
    omega
  simp only [hsub, State.getV_setV, apply_ite BitVec.toNat]

/-! ## The shifts, for either source (42_alu.md R144) -/

theorem shiftRight_getV_toNat (src : ShiftSrc) (x y : RegIdx) (s : State) :
    ((shiftRight src x y s).getV x).toNat =
      if shiftSource src x y = vF then 0 else (s.getV (shiftSource src x y)).toNat / 2 := by
  rw [shiftRight, State.getV_setV_same, State.getV_setV, BitVec.toNat_ushiftRight, Nat.shiftRight_eq_div_pow]
  split
  · rw [lowBitFlag_toNat]
    omega
  · rfl

theorem shiftRight_getV_vF_toNat (src : ShiftSrc) {x : RegIdx} (y : RegIdx) (s : State) (hx : x ≠ vF) :
    ((shiftRight src x y s).getV vF).toNat = (s.getV (shiftSource src x y)).toNat % 2 := by
  rw [shiftRight, State.getV_vF_setV_flag _ _ _ hx, lowBitFlag_toNat]

theorem shiftLeft_getV_toNat (src : ShiftSrc) (x y : RegIdx) (s : State) :
    ((shiftLeft src x y s).getV x).toNat =
      if shiftSource src x y = vF then 2 * ((s.getV (shiftSource src x y)).toNat / 128)
      else 2 * (s.getV (shiftSource src x y)).toNat % 256 := by
  have := (s.getV (shiftSource src x y)).isLt
  rw [shiftLeft, State.getV_setV_same, State.getV_setV, BitVec.toNat_shiftLeft, Nat.shiftLeft_eq]
  split
  · rw [highBitFlag_toNat]
    omega
  · omega

theorem shiftLeft_getV_vF_toNat (src : ShiftSrc) {x : RegIdx} (y : RegIdx) (s : State) (hx : x ≠ vF) :
    ((shiftLeft src x y s).getV vF).toNat = (s.getV (shiftSource src x y)).toNat / 128 := by
  rw [shiftLeft, State.getV_vF_setV_flag _ _ _ hx, highBitFlag_toNat]

/-! ## The bodies -/

/-- Settles O20: each body is one write of `V[x]`, from the register values before it. -/
theorem loadsAndLogicWriteVx : Obligations.LoadsAndLogicWriteVx := by
  unfold Obligations.LoadsAndLogicWriteVx
  intro x y kk s
  have hset (b : Byte) : (s.setV x b).getV x = b ∧ ChangesOnly (fun e => e = .v x) s (s.setV x b) :=
    ⟨s.getV_setV_same x b, changesOnly_setV s x b⟩
  refine ⟨⟨_, exec_ldImm x kk s, hset _⟩, ⟨_, exec_addImm x kk s, ?_, (hset _).2⟩, ⟨_, exec_ldReg x y s, hset _⟩,
    ⟨_, exec_orReg x y s, hset _⟩, ⟨_, exec_andReg x y s, hset _⟩, ⟨_, exec_xorReg x y s, hset _⟩⟩
  rw [State.getV_setV_same, BitVec.toNat_add]

/-- Settles O21: the sum is written last, so only the carry depends on `x` being VF. -/
theorem addWithCarry : Obligations.AddWithCarry := by
  unfold Obligations.AddWithCarry
  intro x y s
  refine ⟨_, exec_addReg x y s, ?_, fun hx => ?_, changesOnly_setV_flag s x _ _⟩
  · rw [State.getV_setV_same, BitVec.toNat_add]
  · rw [State.getV_vF_setV_flag _ _ _ hx, carryFlag_toNat]

/-- Settles O22: the difference reads the flag where a field is 0xF (`toNat_sub_after_flag`), and where `x` is VF it
takes the flag's place. -/
theorem subtractWithStrictFlag : Obligations.SubtractWithStrictFlag := by
  unfold Obligations.SubtractWithStrictFlag
  intro x y s
  have hflag := greaterFlag_toNat (s.getV x) (s.getV y)
  have hdiff := toNat_sub_after_flag s x y (greaterFlag (s.getV x) (s.getV y))
  rw [hflag] at hdiff
  refine ⟨_, exec_subReg x y s, ⟨fun hx hy => ?_, fun hx hy => ?_, fun hx hy => ?_, fun hx hy => ?_⟩,
    changesOnly_setV_flag s x _ _⟩
  · exact s.toNat_result_and_flag hx (by rw [hdiff, if_neg hx, if_neg hy]) hflag
  · exact s.toNat_result_and_flag hx (by rw [hdiff, if_neg hx, if_pos hy]) hflag
  · rw [s.getV_vF_setV_result _ _ hx, hdiff, if_pos hx, if_neg hy]
  · rw [s.getV_vF_setV_result _ _ hx, hdiff, if_pos hx, if_pos hy, Nat.add_sub_cancel_left]

/-- Settles O23: the difference with its operands exchanged reads the flag where a field is 0xF
(`toNat_sub_after_flag`), and where `x` is VF it takes the flag's place. -/
theorem reverseSubtractWithStrictFlag : Obligations.ReverseSubtractWithStrictFlag := by
  unfold Obligations.ReverseSubtractWithStrictFlag
  intro x y s
  have hflag := lessFlag_toNat (s.getV x) (s.getV y)
  have hdiff := toNat_sub_after_flag s y x (lessFlag (s.getV x) (s.getV y))
  rw [hflag] at hdiff
  refine ⟨_, exec_subnReg x y s, ⟨fun hx hy => ?_, fun hx hy => ?_, fun hx hy => ?_, fun hx hy => ?_⟩,
    changesOnly_setV_flag s x _ _⟩
  · exact s.toNat_result_and_flag hx (by rw [hdiff, if_neg hy, if_neg hx]) hflag
  · exact s.toNat_result_and_flag hx (by rw [hdiff, if_pos hy, if_neg hx]) hflag
  · rw [s.getV_vF_setV_result _ _ hx, hdiff, if_neg hy, if_pos hx]
  · rw [s.getV_vF_setV_result _ _ hx, hdiff, if_pos hy, if_pos hx, Nat.add_sub_cancel_left]

/-- Settles O24: the shift reads `V[x]`, whatever `y` is, and where `x` is VF it halves the flag, which is 0 or 1. -/
theorem shiftRightHalves : Obligations.ShiftRightHalves := by
  unfold Obligations.ShiftRightHalves
  intro x y s
  have hresult := shiftRight_getV_toNat .vx x y s
  refine ⟨_, exec_shr x y s, fun hx => ⟨hresult.trans (if_neg hx), shiftRight_getV_vF_toNat .vx y s hx⟩,
    fun hx => ?_, fun _ => rfl, changesOnly_setV_flag s x _ _⟩
  rw [← hx]
  exact hresult.trans (if_pos hx)

/-- Settles O25: the shift reads `V[x]`, whatever `y` is, and where `x` is VF it doubles the flag. -/
theorem shiftLeftDoubles : Obligations.ShiftLeftDoubles := by
  unfold Obligations.ShiftLeftDoubles
  intro x y s
  have hresult := shiftLeft_getV_toNat .vx x y s
  refine ⟨_, exec_shl x y s, fun hx => ⟨hresult.trans (if_neg hx), shiftLeft_getV_vF_toNat .vx y s hx⟩,
    fun hx => ?_, fun _ => rfl, changesOnly_setV_flag s x _ _⟩
  rw [← hx]
  exact hresult.trans (if_pos hx)

/-- Settles O26: the lemmas of the shifts at the source `V[y]`. -/
theorem shiftBodiesWithVySource : Obligations.ShiftBodiesWithVySource := by
  unfold Obligations.ShiftBodiesWithVySource
  exact fun x y s => ⟨shiftRight_getV_toNat .vy x y s, shiftRight_getV_vF_toNat .vy y s,
    shiftLeft_getV_toNat .vy x y s, shiftLeft_getV_vF_toNat .vy y s⟩

/-- Settles O27: the value read and used up, with a byte named (`State.useRnd_named`) and with none
(`State.useRnd_free`). -/
theorem randomByteIsMaskedAndUsed : Obligations.RandomByteIsMaskedAndUsed := by
  unfold Obligations.RandomByteIsMaskedAndUsed
  intro x kk s
  have hframe := exec_changesOnly (exec_rnd x kk s)
  refine ⟨fun b rest h => ⟨_, exec_rnd x kk s, ?_, ?_, ?_, hframe⟩, fun h => ⟨_, exec_rnd x kk s, ?_, ?_, ?_, hframe⟩⟩
  · rw [State.getV_setV_same, s.nextRnd_named h]
  · rw [State.setV_rndIn, s.useRnd_named h]
  · rw [State.setV_draws, s.useRnd_named h]
  · rw [State.getV_setV_same, s.nextRnd_free h]
  · rw [State.setV_rndIn, s.useRnd_free h, h]
  · rw [State.setV_draws, s.useRnd_free h]

end Sys2Proof.Machine
end

section
/-! The random input of `Step(rnd)` (60_exceptions.md R221): an instruction other than Cxkk carries the input along
unread, so that it can be exchanged before or after the step alike. Settles O28. -/

namespace Sys2Proof.Machine

/-! ## The random input exchanged -/

/-- An outcome with the random input of `u` in its next state. -/
def Result.withRndOf (u : State) : Result → Result
  | .next t => .next (t.withRndOf u)
  | .fault f => .fault f
  | .refused q => .refused q

theorem State.skipIf_withRndOf (s u : State) (c : Bool) : (s.withRndOf u).skipIf c = (s.skipIf c).withRndOf u := by
  cases c <;> rfl

theorem drawSprite_withRndOf (x y : RegIdx) (sprite : List Byte) (s u : State) :
    drawSprite x y sprite (s.withRndOf u) = (drawSprite x y sprite s).withRndOf u := by
  rw [drawSprite_eq, drawSprite_eq, apply_ite (State.withRndOf · u)]
  rfl

/-- Every body but the one of Cxkk carries the random input along unread. -/
theorem exec_withRndOf {i : Instr} (hi : ∀ x kk, i ≠ .rnd x kk) (s u : State) :
    exec i (s.withRndOf u) = Result.withRndOf u (exec i s) := by
  cases i
  case rnd x kk => exact absurd rfl (hi x kk)
  case seImm | sneImm | seReg | sneReg | skp | sknp => exact congrArg _ (s.skipIf_withRndOf u _)
  case ret =>
    by_cases hsp : s.sp.val = 0
    · rw [exec_ret_empty s hsp]
      exact exec_ret_empty (s.withRndOf u) hsp
    · have hj : s.sp.val = (⟨s.sp.val - 1, by omega⟩ : Fin 16).val + 1 := (Nat.succ_pred hsp).symm
      rw [exec_ret_pops s _ hj]
      exact exec_ret_pops (s.withRndOf u) _ hj
  case call nnn =>
    by_cases hsp : s.sp.val < 16
    · rw [exec_call_pushes nnn s hsp]
      exact exec_call_pushes nnn (s.withRndOf u) hsp
    · have hfull : s.sp.val = 16 := by omega
      rw [exec_call_full nnn s hfull]
      exact exec_call_full nnn (s.withRndOf u) hfull
  case ldVxKey x =>
    cases hk : s.lowestKeyDown with
    | none =>
      rw [exec_ldVxKey_none x s hk]
      exact exec_ldVxKey_none x (s.withRndOf u) hk
    | some k =>
      rw [exec_ldVxKey_some x s k hk]
      exact exec_ldVxKey_some x (s.withRndOf u) k hk
  case drw x y n =>
    by_cases hin : n = 0 ∨ s.i.toNat + n ≤ 4096
    · rw [exec_drw_inside x y n s hin]
      exact (exec_drw_inside x y n (s.withRndOf u) hin).trans
        (congrArg _ (drawSprite_withRndOf x y (spriteBytes s n) (s.setV vF 0) u))
    · obtain ⟨hn, hout⟩ : n ≠ 0 ∧ 4096 < s.i.toNat + n := by omega
      rw [exec_drw_outside x y n s hn hout]
      exact exec_drw_outside x y n (s.withRndOf u) hn hout
  case ldBcd x =>
    by_cases hin : s.i.toNat + 2 < 4096
    · rw [exec_ldBcd_inside x s hin]
      exact exec_ldBcd_inside x (s.withRndOf u) hin
    · have hout := Nat.le_of_not_lt hin
      rw [exec_ldBcd_outside x s hout]
      exact exec_ldBcd_outside x (s.withRndOf u) hout
  case storeRegs x =>
    by_cases hin : s.i.toNat + x.val < 4096
    · rw [exec_storeRegs_inside x s hin]
      exact exec_storeRegs_inside x (s.withRndOf u) hin
    · have hout := Nat.le_of_not_lt hin
      rw [exec_storeRegs_outside x s hout]
      exact exec_storeRegs_outside x (s.withRndOf u) hout
  case loadRegs x =>
    by_cases hin : s.i.toNat + x.val < 4096
    · obtain ⟨v, hv, hr⟩ := exec_loadRegs_inside x s hin
      obtain ⟨v', hv', hr'⟩ := exec_loadRegs_inside x (s.withRndOf u) hin
      obtain rfl : v' = v := Vector.ext fun r hlt => (hr' ⟨r, hlt⟩).trans (hr ⟨r, hlt⟩).symm
      rw [hv, hv']
      rfl
    · have hout := Nat.le_of_not_lt hin
      rw [exec_loadRegs_outside x s hout]
      exact exec_loadRegs_outside x (s.withRndOf u) hout
  all_goals rfl

/-- So does every step of a core that is not about to execute Cxkk. -/
theorem step_withRndOf {s : State} (h : ∀ x kk, ¬ s.about (.rnd x kk)) (u : State) :
    step (s.withRndOf u) = Result.withRndOf u (step s) := by
  cases hf : s.fault with
  | some f =>
    rw [step_halted s f hf]
    exact step_halted (s.withRndOf u) f hf
  | none =>
    obtain hp | hp | hp : 4096 ≤ s.pc.toNat ∨ s.pc.toNat = 4095 ∨ s.pc.toNat + 1 < 4096 := by omega
    · rw [step_first_outside s hf hp]
      exact step_first_outside (s.withRndOf u) hf hp
    · rw [step_second_outside s hf hp]
      exact step_second_outside (s.withRndOf u) hf hp
    · cases hd : decode s.wordAtPc with
      | error e =>
        rw [step_illegal s e hf hp hd]
        exact step_illegal (s.withRndOf u) e hf hp hd
      | ok i =>
        have hi (x : RegIdx) (kk : Byte) : i ≠ .rnd x kk := fun hi => h x kk ⟨hf, hp, hi ▸ hd⟩
        rw [step_runs s i hf hp hd]
        exact (step_runs (s.withRndOf u) i hf hp hd).trans (exec_withRndOf hi s.advance u)

/-! ## The step as an operation -/

/-- Cxkk reads the byte offered to its step, and the step puts the random input back. -/
theorem State.hostStep_rnd {s : State} {x : RegIdx} {kk : Byte} (h : s.about (.rnd x kk)) (b : Byte) (rest : State) :
    s.hostStep b rest = .ok (s.advance.setV x (b &&& kk), .done) := by
  obtain ⟨hf, hp, hd⟩ := h
  exact State.hostStep_next rest hf (step_runs (s.offerRnd b) (.rnd x kk) hf hp hd)

theorem State.hostStep_congr_rnd {s : State} (h : ∀ x kk, ¬ s.about (.rnd x kk)) (b c : Byte) (rest : State) :
    s.hostStep c rest = s.hostStep b rest := by
  have hstep (d : Byte) : step (s.offerRnd d) = Result.withRndOf (s.offerRnd d) (step s) := 
    step_withRndOf h (s.offerRnd d)
  simp only [State.hostStep, hstep]
  cases step s with
  | next t => rfl
  | fault f => rfl
  | refused r => rfl

/-- Settles O28: the step of Cxkk in closed form (`State.hostStep_rnd`), and every other step alike for any two bytes
(`State.hostStep_congr_rnd`). -/
theorem stepReadsItsRandomInput : Obligations.StepReadsItsRandomInput := by
  unfold Obligations.StepReadsItsRandomInput
  intro m rest b
  refine ⟨fun x kk h => ⟨_, perform_step_of_hostStep (State.hostStep_rnd h b rest), State.getV_setV_same _ x _, ?_⟩,
    fun h c => ?_⟩
  · exact ((changesOnly_setPc _ _).mono fun _ => .inr).trans ((changesOnly_setV _ x _).mono fun _ => .inl)
  · simp only [perform, performStep, State.hostStep_congr_rnd h b c rest]

end Sys2Proof.Machine
end

section
/-! The index register, loads and stores (43_index_memory.md): what Annn, Fx1E and Fx29 make of `I`, the bytes Fx33
and Fx55 leave, the registers Fx65 fills, and the address all three report. Settles O29 to O34. -/

namespace Sys2Proof.Machine

/-! ## The index register as a number -/

theorem indexSum_toNat (s : State) (x : RegIdx) :
    (indexSum s x).toNat = (s.i.toNat + (s.getV x).toNat) % 65536 := by
  rw [indexSum, BitVec.toNat_add, BitVec.toNat_setWidth_of_le (by decide)]

/-- Five times a byte fits a word: Fx29 needs no mask (43_index_memory.md R152). -/
theorem glyphAddr_toNat (b : Byte) : (glyphAddr b).toNat = 5 * b.toNat := by
  have := b.isLt
  exact Nat.mod_eq_of_lt (a := 5 * b.toNat) (by omega)

/-! ## The address reported (20_memory.md R67) -/

theorem firstOutside_of_outside {a : Nat} (h : 4095 < a) : firstOutside a = a := if_pos h

theorem firstOutside_of_inside {a : Nat} (h : a ≤ 4095) : firstOutside a = 0x1000 := if_neg (Nat.not_lt.mpr h)

/-- A body that reports the first address outside of `I` to `I + k` reports `I` where `I` is outside, else 0x1000. -/
theorem exec_faults_of_outside {i : Instr} {s : State} {k : Nat}
    (h : 4096 ≤ s.i.toNat + k → exec i s = .fault (.memoryOutOfBounds (firstOutside s.i.toNat))) :
    (4095 < s.i.toNat → exec i s = .fault (.memoryOutOfBounds s.i.toNat)) ∧
    (s.i.toNat ≤ 4095 → 4095 < indexAddr s k → exec i s = .fault (.memoryOutOfBounds 0x1000)) := by
  constructor
  · intro hi
    rw [h (by omega), firstOutside_of_outside hi]
  · intro hi hk
    rw [h hk, firstOutside_of_inside hi]

/-! ## Bytes stored, registers loaded -/

theorem bcdDigits_map_toNat (b : Byte) :
    (bcdDigits b).map BitVec.toNat = [b.toNat / 100, b.toNat / 10 % 10, b.toNat % 10] := by
  have := b.isLt
  simp only [bcdDigits, List.map_cons, List.map_nil, BitVec.toNat_ofNat, List.cons.injEq, and_true]
  omega

/-- The `k`-th digit lands at `I + k`. -/
theorem Memory.read_writeBytes_bcdDigits (s : State) (x : RegIdx) {k : Nat} (hk : k < 3) :
    ((s.mem.writeBytes s.i.toNat (bcdDigits (s.getV x))).read (indexAddr s k)).toNat =
      [(s.getV x).toNat / 100, (s.getV x).toNat / 10 % 10, (s.getV x).toNat % 10][k] := by
  simp only [← bcdDigits_map_toNat, List.getElem_map]
  exact congrArg BitVec.toNat (Memory.read_writeBytes_inside (bcdDigits (s.getV x)) s.mem s.i.toNat k hk)

theorem exec_storeRegs_read {x r : RegIdx} {s t : State} (h : exec (.storeRegs x) s = .next t) (hr : r ≤ x) :
    t.mem.read (indexAddr s r.val) = s.getV r :=
  (exec_read_eq_memAfter h _).trans (memAfter_storeRegs_inside s hr)

theorem exec_storeRegs_next_inside {x : RegIdx} {s t : State} (h : exec (.storeRegs x) s = .next t) :
    indexAddr s x.val < 4096 := by
  by_contra hout
  rw [exec_storeRegs_outside x s (Nat.le_of_not_lt hout)] at h
  cases h

theorem exec_loadRegs_getV (x : RegIdx) {s : State} (h : indexAddr s x.val < 4096) :
    ∃ t, exec (.loadRegs x) s = .next t ∧ ∀ r, r ≤ x → t.getV r = s.mem.read (indexAddr s r.val) := by
  obtain ⟨v', hexec, hv⟩ := exec_loadRegs_inside x s h
  exact ⟨_, hexec, fun r hr => (hv r).trans (if_pos hr)⟩

/-! ## The statements -/

/-- Settles O31: the digits where they land (`Memory.read_writeBytes_bcdDigits`), the frame of the body
(`exec_changesOnly`), and the two faults (`exec_faults_of_outside`). -/
theorem bcdStoresDigits : Obligations.BcdStoresDigits := by
  unfold Obligations.BcdStoresDigits
  refine fun x s => ⟨fun hin => ?_, exec_faults_of_outside (exec_ldBcd_outside x s)⟩
  have hexec := exec_ldBcd_inside x s (Nat.lt_succ_of_le hin)
  have hdigit {k : Nat} (hk : k < 3) := Memory.read_writeBytes_bcdDigits s x hk
  exact ⟨_, hexec, hdigit (by decide), hdigit (by decide), hdigit (by decide), exec_changesOnly hexec⟩

/-- Settles O32: every register where it lands (`exec_storeRegs_read`), the frame of the body, and the two faults. -/
theorem storeRegistersAtIndex : Obligations.StoreRegistersAtIndex := by
  unfold Obligations.StoreRegistersAtIndex
  refine fun x s => ⟨fun hin => ?_, exec_faults_of_outside (exec_storeRegs_outside x s)⟩
  have hexec := exec_storeRegs_inside x s (Nat.lt_succ_of_le hin)
  exact ⟨_, hexec, fun r hr => exec_storeRegs_read hexec hr, exec_changesOnly hexec⟩

/-- Settles O33: every register with its byte (`exec_loadRegs_getV`), the frame of the body, and the two faults. -/
theorem loadRegistersFromIndex : Obligations.LoadRegistersFromIndex := by
  unfold Obligations.LoadRegistersFromIndex
  refine fun x s => ⟨fun hin => ?_, exec_faults_of_outside (exec_loadRegs_outside x s)⟩
  obtain ⟨t, hexec, hv⟩ := exec_loadRegs_getV x (Nat.lt_succ_of_le hin)
  exact ⟨t, hexec, hv, exec_changesOnly hexec⟩

/-- Settles O34: a store that completed had all its addresses in memory and left `I`, so the load completes, and each
register gets the byte stored from it. -/
theorem storeThenLoadRestores : Obligations.StoreThenLoadRestores := by
  unfold Obligations.StoreThenLoadRestores
  intro x s t u hstore hmem hi
  have his : t.i = s.i := exec_changesOnly hstore .i (by simp [instrWrites])
  have haddr (k : Nat) : indexAddr u k = indexAddr s k := by rw [indexAddr, indexAddr, hi, his]
  obtain ⟨w, hload, hw⟩ := exec_loadRegs_getV x (s := u) (by
    rw [haddr]
    exact exec_storeRegs_next_inside hstore)
  refine ⟨w, hload, fun r hr => ?_⟩
  rw [hw r hr, hmem, haddr]
  exact exec_storeRegs_read hstore hr

/-- Settles O29: a 12-bit address is itself as a word (`absTarget_toNat`), and only `I` is set. -/
theorem loadIndexSetsI : Obligations.LoadIndexSetsI := by
  unfold Obligations.LoadIndexSetsI
  exact fun nnn s => ⟨_, exec_ldI nnn s, absTarget_toNat nnn, changesOnly_setI s _⟩

/-- Settles O30: the wrapped sum (`indexSum_toNat`) and the glyph address (`glyphAddr_toNat`), and only `I` is set. -/
theorem indexArithmetic : Obligations.IndexArithmetic := by
  unfold Obligations.IndexArithmetic
  exact fun x s => ⟨⟨_, exec_addI x s, indexSum_toNat s x, changesOnly_setI s _⟩,
    ⟨_, exec_ldFont x s, glyphAddr_toNat (s.getV x), changesOnly_setI s _⟩⟩

end Sys2Proof.Machine
end

section
/-! The display (44_display.md): a scan of up to 32 rows as the picture of R174, whose rows land on different rows of
the screen, and Dxyn as a scan of the bytes at `I`. Settles O38 to O42. -/

namespace Sys2Proof.Machine

/-! ## The rows of a sprite -/

/-- The columns of a row byte in the order of the scan. -/
abbrev spriteColumns : List Nat := [0, 1, 2, 3, 4, 5, 6, 7]

/-- Some row of the list, the first having number `r`, hits the pixel. -/
def rowsHit (ox oy : Byte) (r : Nat) (rows : List Byte) (px : Fin 64) (py : Fin 32) : Prop :=
  ∃ k, ∃ h : k < rows.length, rowHits ox oy (r + k) rows[k] spriteColumns px py

theorem rowsHit_nil (ox oy : Byte) (r : Nat) (px : Fin 64) (py : Fin 32) : ¬ rowsHit ox oy r [] px py :=
  fun ⟨_, h, _⟩ => absurd h (Nat.not_lt_zero _)

theorem rowsHit_cons (ox oy : Byte) (r : Nat) (row : Byte) (rows : List Byte) (px : Fin 64) (py : Fin 32) :
    rowsHit ox oy r (row :: rows) px py ↔
      rowHits ox oy r row spriteColumns px py ∨ rowsHit ox oy (r + 1) rows px py := by
  constructor
  · rintro ⟨k, h, hit⟩
    cases k with
    | zero => exact .inl hit
    | succ k => exact .inr ⟨k, Nat.lt_of_succ_lt_succ h, by rwa [Nat.add_right_comm r 1 k]⟩
  · rintro (hit | ⟨k, h, hit⟩)
    · exact ⟨0, Nat.succ_pos _, hit⟩
    · exact ⟨k + 1, Nat.succ_lt_succ h, by rwa [Nat.add_right_comm r 1 k] at hit⟩

/-- The placed sprite of R174 is what its rows hit. -/
theorem spriteCovers_iff_rowsHit (ox oy : Byte) (sprite : List Byte) (px : Fin 64) (py : Fin 32) :
    spriteCovers ox oy sprite px py ↔ rowsHit ox oy 0 sprite px py := by
  have hcol (c : Nat) : c ∈ spriteColumns ↔ c < 8 := List.mem_range (n := 8)
  have hx (c : Nat) : targetX ox c = px ↔ px.val = (ox.toNat + c) % 64 := Fin.ext_iff.trans eq_comm
  have hy (r : Nat) : targetY oy r = py ↔ py.val = (oy.toNat + r) % 32 := Fin.ext_iff.trans eq_comm
  simp only [spriteCovers, rowsHit, rowHits, hcol, hx, hy, Nat.zero_add]
  exact exists_congr fun _ => exists_comm

/-- Up to 32 rows land on different rows of the screen, so a pixel the first one hits is hit by no later one. -/
theorem not_rowsHit_succ_of_rowHits {ox oy : Byte} {r : Nat} {row : Byte} {rows : List Byte} {cs : List Nat}
    {px : Fin 64} {py : Fin 32} (hlen : rows.length < 32) (hit : rowHits ox oy r row cs px py) :
    ¬ rowsHit ox oy (r + 1) rows px py := by
  rintro ⟨k, hk, _, _, _, _, hlater⟩
  obtain ⟨_, _, _, _, hfirst⟩ := hit
  have hrow : (oy.toNat + (r + 1 + k)) % 32 = (oy.toNat + r) % 32 := congrArg Fin.val (hlater.trans hfirst.symm)
  omega

/-! ## The scan of a sprite -/

/-- A scan of rows inverts exactly the pixels they hit: each pixel is hit by one row at most. -/
theorem Canvas.pixel_plotRows (ox oy : Byte) (px : Fin 64) (py : Fin 32) (rows : List Byte) :
    ∀ (r : Nat) (k : Canvas), rows.length ≤ 32 →
    (rowsHit ox oy r rows px py → pixel (Canvas.plotRows ox oy r rows k).fb px py = !pixel k.fb px py) ∧
    (¬ rowsHit ox oy r rows px py → pixel (Canvas.plotRows ox oy r rows k).fb px py = pixel k.fb px py) := by
  induction rows with
  | nil => exact fun r k _ => ⟨fun hit => absurd hit (rowsHit_nil ox oy r px py), fun _ => rfl⟩
  | cons row rows ih =>
    intro r k hlen
    obtain ⟨hhit, hmiss⟩ := Canvas.pixel_plotRow ox oy r row px py spriteColumns k (targetX_nodup ox)
    obtain ⟨ihhit, ihmiss⟩ := ih (r + 1) (Canvas.plotRow ox oy r row spriteColumns k) (Nat.le_of_succ_le hlen)
    rw [rowsHit_cons, Canvas.plotRows, not_or]
    refine ⟨?_, fun ⟨hrow, hrest⟩ => (ihmiss hrest).trans (hmiss hrow)⟩
    rintro (hrow | hrest)
    · exact (ihmiss (not_rowsHit_succ_of_rowHits hlen hrow)).trans (hhit hrow)
    · exact (ihhit hrest).trans <| congrArg _ <| hmiss fun hrow =>
        not_rowsHit_succ_of_rowHits hlen hrow hrest

/-- A scan of rows collides when they hit a pixel lit before: no row changes a pixel that a later one hits. -/
theorem Canvas.collided_plotRows (ox oy : Byte) (rows : List Byte) :
    ∀ (r : Nat) (k : Canvas), rows.length ≤ 32 →
    ((Canvas.plotRows ox oy r rows k).collided = true ↔
      k.collided = true ∨ ∃ px py, rowsHit ox oy r rows px py ∧ pixel k.fb px py = true) := by
  induction rows with
  | nil => simp [Canvas.plotRows, rowsHit_nil]
  | cons row rows ih =>
    intro r k hlen
    have hkeep {px py} (hrest : rowsHit ox oy (r + 1) rows px py) :
        pixel (Canvas.plotRow ox oy r row spriteColumns k).fb px py = pixel k.fb px py :=
      (Canvas.pixel_plotRow ox oy r row px py spriteColumns k (targetX_nodup ox)).2 fun hrow =>
        not_rowsHit_succ_of_rowHits hlen hrow hrest
    rw [Canvas.plotRows, ih _ _ (Nat.le_of_succ_le hlen),
      Canvas.collided_plotRow ox oy r row _ _ (targetX_nodup ox)]
    simp only [rowsHit_cons]
    constructor
    · rintro ((hk | ⟨px, py, hrow, hlit⟩) | ⟨px, py, hrest, hlit⟩)
      · exact .inl hk
      · exact .inr ⟨px, py, .inl hrow, hlit⟩
      · exact .inr ⟨px, py, .inr hrest, (hkeep hrest).symm.trans hlit⟩
    · rintro (hk | ⟨px, py, hrow | hrest, hlit⟩)
      · exact .inl (.inl hk)
      · exact .inl (.inr ⟨px, py, hrow, hlit⟩)
      · exact .inr ⟨px, py, hrest, (hkeep hrest).trans hlit⟩

theorem pixel_draw (f : Framebuffer) (ox oy : Byte) {sprite : List Byte} (hlen : sprite.length ≤ 32)
    (px : Fin 64) (py : Fin 32) :
    (spriteCovers ox oy sprite px py → pixel (draw f ox oy sprite).fb px py = !pixel f px py) ∧
    (¬ spriteCovers ox oy sprite px py → pixel (draw f ox oy sprite).fb px py = pixel f px py) := by
  rw [spriteCovers_iff_rowsHit]
  exact Canvas.pixel_plotRows ox oy px py sprite 0 ⟨f, false⟩ hlen

theorem collided_draw (f : Framebuffer) (ox oy : Byte) {sprite : List Byte} (hlen : sprite.length ≤ 32) :
    (draw f ox oy sprite).collided = true ↔ ∃ px py, spriteCovers ox oy sprite px py ∧ pixel f px py = true := by
  simp only [spriteCovers_iff_rowsHit]
  exact (Canvas.collided_plotRows ox oy sprite 0 ⟨f, false⟩ hlen).trans (or_iff_right Bool.false_ne_true)

/-! ## The draw on a state -/

theorem drawSprite_fb (x y : RegIdx) (sprite : List Byte) (s : State) :
    (drawSprite x y sprite s).fb = (draw s.fb (s.getV x) (s.getV y) sprite).fb := by
  rw [drawSprite_eq]
  split <;> rfl

theorem drawSprite_getV_vF (x y : RegIdx) (sprite : List Byte) (s : State) :
    (drawSprite x y sprite s).getV vF =
      if (draw s.fb (s.getV x) (s.getV y) sprite).collided then 1 else s.getV vF := by
  rw [drawSprite_eq]
  split
  · exact State.getV_setV_same _ vF 1
  · rfl

/-! ## The statements -/

/-- Settles O39: the rows of a sprite hit each pixel once at most (`Canvas.pixel_plotRows`). -/
theorem drawIsExclusiveOr : Obligations.DrawIsExclusiveOr := by
  unfold Obligations.DrawIsExclusiveOr
  exact fun f ox oy _ hlen => pixel_draw f ox oy (by omega)

/-- Settles O40: no bit of the sprite changes a pixel that a later one lands on (`Canvas.collided_plotRows`). -/
theorem collisionIffLitPixelHit : Obligations.CollisionIffLitPixelHit := by
  unfold Obligations.CollisionIffLitPixelHit
  exact fun f ox oy _ hlen => collided_draw f ox oy (by omega)

/-- Settles O41: a covered pixel is inverted twice, every other one is left twice. -/
theorem drawTwiceRestores : Obligations.DrawTwiceRestores := by
  unfold Obligations.DrawTwiceRestores
  intro f ox oy sprite h15
  have hlen : sprite.length ≤ 32 := by omega
  refine framebuffer_ext fun px py => ?_
  obtain ⟨hflip, hkeep⟩ := pixel_draw f ox oy hlen px py
  obtain ⟨hflip₂, hkeep₂⟩ := pixel_draw (draw f ox oy sprite).fb ox oy hlen px py
  by_cases hcov : spriteCovers ox oy sprite px py
  · rw [hflip₂ hcov, hflip hcov, Bool.not_not]
  · rw [hkeep₂ hcov, hkeep hcov]

/-- Settles O42: with VF cleared, the body is the draw of the bytes at `I` (`exec_drw_inside`), so its pixels and its
flag are those of the scan, with the frame of the body; or it reports the first address outside. -/
theorem drawInstruction : Obligations.DrawInstruction := by
  unfold Obligations.DrawInstruction
  intro x y n s hn
  refine ⟨?_, fun hn0 hi => ?_, fun hi hout => ?_⟩
  · intro ox oy sprite hin
    have hlen : sprite.length ≤ 32 := by simp [sprite]; omega
    have hexec := exec_drw_inside x y n s hin
    have hox : (s.setV vF 0).getV x = ox := State.getV_setV s vF x 0
    have hoy : (s.setV vF 0).getV y = oy := State.getV_setV s vF y 0
    have hfb := drawSprite_fb x y sprite (s.setV vF 0)
    have hvF := drawSprite_getV_vF x y sprite (s.setV vF 0)
    rw [hox, hoy, State.setV_fb] at hfb hvF
    rw [State.getV_setV_same] at hvF
    refine ⟨_, hexec, fun px py => ?_, fun hhit => ?_, fun hmiss => ?_, exec_changesOnly hexec⟩
    · exact hfb ▸ pixel_draw s.fb ox oy hlen px py
    · exact hvF.trans (if_pos ((collided_draw s.fb ox oy hlen).mpr hhit))
    · exact hvF.trans (if_neg fun hcol => hmiss ((collided_draw s.fb ox oy hlen).mp hcol))
  · rw [exec_drw_outside x y n s hn0 (by omega), firstOutside_of_outside hi]
  · rw [exec_drw_outside x y n s (by omega) hout, firstOutside_of_inside hi]

/-- Settles O38: every pixel of the cleared framebuffer is 0 (`pixel_clearFb`), and only the framebuffer is set. -/
theorem clearDisplayZeroesEveryPixel : Obligations.ClearDisplayZeroesEveryPixel := by
  unfold Obligations.ClearDisplayZeroesEveryPixel
  exact fun s => ⟨_, exec_cls s, pixel_clearFb, changesOnly_setFb s clearFb⟩

end Sys2Proof.Machine
end

section
/-! Keypad and timers (45_keypad_timer.md R190 to R196): the skips on a key, the wait for a key and its spin, and the
timer transfers. Settles O19 and O43 to O45. -/

namespace Sys2Proof.Machine

/-! ## The wait for a key -/

/-- Settles O43: what `LowestKeyDown()` answers decides which of the two bodies of Fx0A runs, and a key number fits a
byte. -/
theorem keyWaitReadsLowestKey : Obligations.KeyWaitReadsLowestKey := by
  unfold Obligations.KeyWaitReadsLowestKey
  refine fun x s => ⟨fun hup => ?_, fun k hdown hlower => ?_⟩
  · exact exec_ldVxKey_none x s (s.lowestKeyDown_eq_none.mpr hup)
  · have hlowest : s.lowestKeyDown = some k := (s.lowestKeyDown_eq_some k).mpr ⟨hdown, hlower⟩
    refine ⟨_, exec_ldVxKey_some x s k hlowest, ?_, changesOnly_setV s x _⟩
    rw [State.getV_setV_same]
    exact Nat.mod_eq_of_lt (by omega)

@[simp] theorem State.rewind_advance (s : State) : s.advance.rewind = s :=
  congrArg s.setPc (BitVec.add_sub_cancel s.pc 2)

/-- With no key down the body takes `pc` back to the Fx0A that the step had advanced from (45_keypad_timer.md R193). -/
theorem step_ldVxKey_none {s : State} {x : RegIdx} (h : s.about (.ldVxKey x)) (hup : ∀ k, s.isDown k = false) :
    step s = .next s := by
  obtain ⟨hf, hp, hd⟩ := h
  rw [step_runs s (.ldVxKey x) hf hp hd, exec_ldVxKey_none x _ (s.advance.lowestKeyDown_eq_none.mpr hup),
    State.rewind_advance]

/-- A fixed point of one step is one of any number of them. -/
theorem run_of_step_self {M : Host.Core} {s : M.State} (h : M.step s = .next s) (n : Nat) : M.run n s = .next s := by
  induction n with
  | zero => rfl
  | succ n ih => rw [Host.Core.run, h]; exact ih

/-- Settles O44: a waiting core is a fixed point of the step (`step_ldVxKey_none`). -/
theorem keyWaitSpins : Obligations.KeyWaitSpins := by
  unfold Obligations.KeyWaitSpins
  exact fun _ _ n habout hup => run_of_step_self (M := core) (step_ldVxKey_none habout hup) n

/-! ## The skips on a key -/

/-- A skip as the record update that the statements write. -/
theorem State.skipIf_eq_ite (s : State) (c : Bool) :
    s.skipIf c = if c = true then { s with pc := s.pc + 2 } else s := rfl

/-- A skip on the complement, with the two cases exchanged (45_keypad_timer.md R191). -/
theorem State.skipIf_not (s : State) (c : Bool) :
    s.skipIf (!c) = if c = true then s else { s with pc := s.pc + 2 } := by
  cases c <;> rfl

/-- Settles O19: Ex9E skips on the key's own bit (`State.skipIf_eq_ite`), ExA1 on its complement
(`State.skipIf_not`). -/
theorem keySkips : Obligations.KeySkips := by
  unfold Obligations.KeySkips
  refine fun k s => ⟨?_, ?_⟩
  · rw [exec_skp, s.skipIf_eq_ite]
  · rw [exec_sknp, s.skipIf_not]

/-! ## The timers -/

/-- Settles O45: each transfer is one write, of `V[x]` or of a timer, with the frame of that write. -/
theorem timerTransfers : Obligations.TimerTransfers := by
  unfold Obligations.TimerTransfers
  refine fun x s => ⟨?_, ?_, ?_⟩
  · exact ⟨_, exec_ldVxDt x s, s.getV_setV_same x s.dt, changesOnly_setV s x _⟩
  · exact ⟨_, exec_ldDtVx x s, s.setDt_dt (s.getV x), changesOnly_setDt s _⟩
  · exact ⟨_, exec_ldStVx x s, s.setSt_st (s.getV x), changesOnly_setSt s _⟩

end Sys2Proof.Machine
end

section
/-! Which fault which instruction raises, and what a step reports (60_exceptions.md R200 to R207). Settles O6, O9 and
O11. -/

namespace Sys2Proof.Machine

/-! ## The faults of a body (60_exceptions.md R200, R207) -/

/-- Everything a body that faults can report: an empty or a full stack, or an address outside memory. -/
theorem exec_fault_cases {i : Instr} {s : State} {f : Fault} (h : exec i s = .fault f) :
    (i = .ret ∧ f = .stackUnderflow) ∨
    (∃ nnn, i = .call nnn ∧ f = .stackOverflow) ∨
    (∃ a, f = .memoryOutOfBounds a ∧
      ((∃ x y n, i = .drw x y n) ∨ ∃ x, i = .ldBcd x ∨ i = .storeRegs x ∨ i = .loadRegs x)) := by
  cases i
  case ret =>
    by_cases hsp : s.sp.val = 0
    · rw [exec_ret_empty s hsp] at h
      cases h
      exact .inl ⟨rfl, rfl⟩
    · rw [exec_ret_pops s ⟨s.sp.val - 1, by omega⟩ (Nat.succ_pred hsp).symm] at h
      cases h
  case call nnn =>
    by_cases hsp : s.sp.val < 16
    · rw [exec_call_pushes nnn s hsp] at h
      cases h
    · rw [exec_call_full nnn s (by omega)] at h
      cases h
      exact .inr (.inl ⟨nnn, rfl, rfl⟩)
  case drw x y n =>
    by_cases hin : n = 0 ∨ s.i.toNat + n ≤ 4096
    · rw [exec_drw_inside x y n s hin] at h
      cases h
    · rw [exec_drw_outside x y n s (by omega) (by omega)] at h
      cases h
      exact .inr (.inr ⟨_, rfl, .inl ⟨x, y, n, rfl⟩⟩)
  case ldBcd x =>
    by_cases hin : s.i.toNat + 2 < 4096
    · rw [exec_ldBcd_inside x s hin] at h
      cases h
    · rw [exec_ldBcd_outside x s (by omega)] at h
      cases h
      exact .inr (.inr ⟨_, rfl, .inr ⟨x, .inl rfl⟩⟩)
  case storeRegs x =>
    by_cases hin : s.i.toNat + x.val < 4096
    · rw [exec_storeRegs_inside x s hin] at h
      cases h
    · rw [exec_storeRegs_outside x s (by omega)] at h
      cases h
      exact .inr (.inr ⟨_, rfl, .inr ⟨x, .inr (.inl rfl)⟩⟩)
  case loadRegs x =>
    by_cases hin : s.i.toNat + x.val < 4096
    · obtain ⟨v', hv, -⟩ := exec_loadRegs_inside x s hin
      rw [hv] at h
      cases h
    · rw [exec_loadRegs_outside x s (by omega)] at h
      cases h
      exact .inr (.inr ⟨_, rfl, .inr ⟨x, .inr (.inr rfl)⟩⟩)
  case ldVxKey x =>
    cases hk : s.lowestKeyDown with
    | none =>
      rw [exec_ldVxKey_none x s hk] at h
      cases h
    | some k =>
      rw [exec_ldVxKey_some x s k hk] at h
      cases h
  all_goals cases h

/-- Settles O9: per instruction, the outcome of its body where it faults (`exec_fault_cases`). -/
theorem faultKindOfEachInstruction : Obligations.FaultKindOfEachInstruction := by
  unfold Obligations.FaultKindOfEachInstruction
  exact fun _ _ _ h => exec_fault_cases h

/-! ## The word that is no instruction (60_exceptions.md R201) -/

/-- InvalidOpcode is the decoder's: no body raises it. -/
theorem exec_ne_invalidOpcode (i : Instr) (s : State) (w : Word) : exec i s ≠ .fault (.invalidOpcode w) := by
  intro h
  obtain ⟨-, hf⟩ | ⟨_, -, hf⟩ | ⟨_, hf, -⟩ := exec_fault_cases h <;> cases hf

/-- A fetch that succeeds found both bytes in memory and read the word there. -/
theorem State.fetch_eq_ok {s : State} {w : Word} (h : s.fetch = .ok w) :
    s.pc.toNat + 1 < 4096 ∧ s.wordAtPc = w := by
  obtain hp | hp | hp : 4096 ≤ s.pc.toNat ∨ s.pc.toNat = 4095 ∨ s.pc.toNat + 1 < 4096 := by omega
  · rw [s.fetch_first_outside hp] at h
    cases h
  · rw [s.fetch_second_outside hp] at h
    cases h
  · exact ⟨hp, Except.ok.inj ((s.fetch_inside hp).symm.trans h)⟩

/-- The decoder accepts exactly the words of the opcode map. -/
theorem exists_decode_iff_exists_row (w : Word) :
    (∃ i, decode w = .ok i) ↔ ∃ r ∈ opcodeTable, r.matches w = true := by
  constructor
  · rintro ⟨i, hi⟩
    obtain ⟨hwf, rfl⟩ := encode_decode hi
    exact ⟨i.row, i.row_mem, i.row_matches_encode hwf⟩
  · rintro ⟨r, hr, h⟩
    obtain ⟨i, hi, -⟩ := decode_of_matches hr h
    exact ⟨i, hi⟩

/-- Settles O6: the fetched word is an instruction exactly when it matches a row (`exists_decode_iff_exists_row`); if
not, the step reports it, and if so, the body runs, which never raises InvalidOpcode (`exec_ne_invalidOpcode`). -/
theorem unmatchedWordRaisesInvalidOpcode : Obligations.UnmatchedWordRaisesInvalidOpcode := by
  unfold Obligations.UnmatchedWordRaisesInvalidOpcode
  intro s w hf hw
  obtain ⟨hp, rfl⟩ := State.fetch_eq_ok hw
  constructor
  · intro hnone
    cases hd : decode s.wordAtPc with
    | error e => exact step_illegal s e hf hp hd
    | ok i =>
      obtain ⟨r, hr, hmatch⟩ := (exists_decode_iff_exists_row _).mp ⟨i, hd⟩
      exact absurd hmatch (Bool.eq_false_iff.mp (hnone r hr))
  · intro hrow w'
    obtain ⟨i, hi⟩ := (exists_decode_iff_exists_row _).mpr hrow
    rw [step_runs s i hf hp hi]
    exact exec_ne_invalidOpcode i s.advance w'

/-! ## The address reported (60_exceptions.md R204) -/

/-- Settles O11: a step of a running core reports legal faults only (`step_fault_legal`). -/
theorem reportedAddressesAreInRange : Obligations.ReportedAddressesAreInRange := by
  unfold Obligations.ReportedAddressesAreInRange
  intro s a hf h
  obtain ⟨hlo, hhi⟩ : (Fault.memoryOutOfBounds a).legal := step_fault_legal hf h
  exact ⟨hlo, Nat.le_of_lt_succ hhi⟩

end Sys2Proof.Machine
end

section
/-! The host's timers, keys, ROM and snapshot (60_exceptions.md R210 to R216). Settles O46 to O50. -/

namespace Sys2Proof.Machine

/-! ## Ticks (60_exceptions.md R210, R211) -/

theorem countDown_toNat (b : Byte) : (countDown b).toNat = b.toNat - 1 := by
  unfold countDown
  split
  · next hb => rw [hb]; rfl
  · next hb => bv_omega

theorem State.beeps_eq_decide (s : State) : s.beeps = decide (0 < s.st.toNat) := by
  rw [State.beeps, Bool.eq_iff_iff, bne_iff_ne, decide_eq_true_iff, Nat.pos_iff_ne_zero, Ne, BitVec.toNat_eq]
  rfl

/-- Settles O46: each timer counts down once (`countDown_toNat`), and the beep reads `st` before
(`State.beeps_eq_decide`). -/
theorem tickCountsDown : Obligations.TickCountsDown := by
  unfold Obligations.TickCountsDown
  intro m
  refine ⟨m.withCore m.core.tick, m.core.beeps, rfl, countDown_toNat _, countDown_toNat _, ?_, changesOnly_tick m.core⟩
  rw [State.beeps_eq_decide, decide_eq_true_iff]

/-- The tick after `n` others is the last of `n + 1`. -/
theorem tickTimes_succ (n : Nat) (s : State) : tickTimes (n + 1) s = (tickTimes n s).tick := by
  induction n generalizing s with
  | zero => rfl
  | succ n ih => exact ih s.tick

theorem tickTimes_dt_toNat (n : Nat) (s : State) : (tickTimes n s).dt.toNat = s.dt.toNat - n := by
  induction n with
  | zero => rfl
  | succ n ih => rw [tickTimes_succ, State.tick_dt, countDown_toNat, ih, Nat.sub_sub]

theorem tickTimes_st_toNat (n : Nat) (s : State) : (tickTimes n s).st.toNat = s.st.toNat - n := by
  induction n with
  | zero => rfl
  | succ n ih => rw [tickTimes_succ, State.tick_st, countDown_toNat, ih, Nat.sub_sub]

/-- Settles O47: after `n` ticks the timers are `n` lower, and the next tick beeps while `st` is above 0. -/
theorem beepsExactlyStTicks : Obligations.BeepsExactlyStTicks := by
  unfold Obligations.BeepsExactlyStTicks
  refine fun s fresh n => ⟨?_, tickTimes_dt_toNat n s, tickTimes_st_toNat n s⟩
  have hbeep : (tickTimes n s).beeps = decide (n < s.st.toNat) := by
    simp only [State.beeps_eq_decide, tickTimes_st_toNat, Nat.sub_pos_iff_lt]
  rw [tickTimes_succ, ← hbeep]
  rfl

/-! ## Keys (60_exceptions.md R212, R213) -/

/-- Settles O48: both operations as writes to `keys`, with their frames. -/
theorem keyOperations : Obligations.KeyOperations := by
  unfold Obligations.KeyOperations
  refine fun m k => ⟨⟨_, rfl, ?_, changesOnly_pressKey m.core k⟩,
    ⟨_, rfl, m.core.isDown_releaseKeys, changesOnly_releaseKeys m.core⟩⟩
  exact (m.core.isDown_pressKey k k).trans (if_pos rfl)

/-! ## ROM (60_exceptions.md R215, R216) -/

/-- Settles O49: in time and short enough, the ROM is one block of bytes from 0x200 upward
(`Memory.read_writeBytes_inside`), with that block's frame; and the two refusals. -/
theorem loadRomPlacesBytes : Obligations.LoadRomPlacesBytes := by
  unfold Obligations.LoadRomPlacesBytes
  refine fun bytes m => ⟨fun hm hlen => ?_, perform_loadRom_too_long, perform_loadRom_too_late bytes⟩
  exact ⟨_, perform_loadRom_in_time hm hlen, hm,
    fun k hk => Memory.read_writeBytes_inside bytes m.core.mem 0x200 k hk, changesOnly_loadRom m.core bytes⟩

/-! ## Snapshot (60_exceptions.md R214) -/

theorem column_of_pixelIndex (px : Fin 64) (py : Fin 32) : Fin.ofNat 64 (64 * py.val + px.val) = px :=
  Fin.ext (by simp only [Fin.val_ofNat]; omega)

theorem row_of_pixelIndex (px : Fin 64) (py : Fin 32) : Fin.ofNat 32 ((64 * py.val + px.val) / 64) = py :=
  Fin.ext (by simp only [Fin.val_ofNat]; omega)

/-- The rows one after the other are one list, whose index gives the column by its remainder and the row by its
quotient. -/
theorem snapshotPixels_eq_ofFn (f : Framebuffer) :
    snapshotPixels f = List.ofFn fun k : Fin (64 * 32) => pixel f (Fin.ofNat 64 k) (Fin.ofNat 32 (k / 64)) := by
  simp only [List.ofFn_mul', column_of_pixelIndex, row_of_pixelIndex, List.ofFn_eq_map, snapshotPixels, List.flatMap]

theorem length_snapshotPixels (f : Framebuffer) : (snapshotPixels f).length = 2048 := by
  rw [snapshotPixels_eq_ofFn, List.length_ofFn]

theorem getElem?_snapshotPixels (f : Framebuffer) (px : Fin 64) (py : Fin 32) :
    (snapshotPixels f)[64 * py.val + px.val]? = some (pixel f px py) := by
  have hk : 64 * py.val + px.val < 64 * 32 := by omega
  rw [snapshotPixels_eq_ofFn, List.getElem?_ofFn, dif_pos hk, column_of_pixelIndex, row_of_pixelIndex]

/-- Settles O50: one list of 2048 pixels in row-major order (`snapshotPixels_eq_ofFn`), from the session as it is. -/
theorem snapshotIsRowMajor : Obligations.SnapshotIsRowMajor := by
  unfold Obligations.SnapshotIsRowMajor
  exact fun m => ⟨_, rfl, length_snapshotPixels m.core.fb, getElem?_snapshotPixels m.core.fb⟩

end Sys2Proof.Machine
end

section
/-! The fault latch (60_exceptions.md R205, R217) and the lists of operations the host can make (R216). Settles O51,
O52 and O60. -/

namespace Sys2Proof.Machine

/-! ## The step as an operation -/

theorem perform_step_halted {m : Session} {f : Fault} (hf : m.core.fault = some f) (hm : m.fresh = false)
    (b : Byte) (rest : State) : perform (.step b rest) m = .ok (m, .faulted f) := by
  obtain ⟨s, fresh⟩ := m
  obtain rfl : fresh = false := hm
  exact perform_step_of_hostStep (s.hostStep_halted rest b hf)

/-- `Step` is a move in every state: the core never refuses (`stepNeverRefuses`). -/
theorem State.hostStep_ok (s rest : State) (b : Byte) : ∃ t r, s.hostStep b rest = .ok (t, r) := by
  cases hf : s.fault with
  | some f => exact ⟨_, _, s.hostStep_halted rest b hf⟩
  | none =>
    cases hs : step (s.offerRnd b) with
    | next t => exact ⟨_, _, State.hostStep_next rest hf hs⟩
    | fault f => exact ⟨_, _, State.hostStep_fault rest hf hs⟩
    | refused q => exact absurd hs (stepNeverRefuses _ q)

/-! ## The latch -/

/-- Settles O51: the step latches the fault (`State.hostStep_fault`), a halted core repeats it
(`perform_step_halted`), and a reported address, being legal, fits the 16 bits of `FAULT.info`. -/
theorem faultLatchesAndHalts : Obligations.FaultLatchesAndHalts := by
  unfold Obligations.FaultLatchesAndHalts
  intro m rest b f hf hstep
  have hlatch := m.core.latchFault_fault rest f
  refine ⟨⟨m.core.latchFault f rest, false⟩, perform_step_of_hostStep (State.hostStep_fault rest hf hstep), hlatch,
    perform_step_halted hlatch rfl, rfl, ?_, ?_, ?_, ?_⟩
  · rintro w rfl
    exact ⟨rfl, rfl⟩
  · rintro rfl
    exact ⟨rfl, rfl⟩
  · rintro rfl
    exact ⟨rfl, rfl⟩
  · rintro a rfl
    obtain ⟨-, ha⟩ : (Fault.memoryOutOfBounds a).legal := step_fault_legal (s := m.core.offerRnd b) hf hstep
    exact ⟨rfl, Nat.mod_eq_of_lt ha⟩

theorem perform_keeps_latch {op : HostOp} {m t : Session} {r : Report} {f : Fault} (hf : m.core.fault = some f)
    (hop : op ≠ .reset) (h : perform op m = .ok (t, r)) : t.core.fault = some f := by
  obtain ⟨hreset, -⟩ | ⟨bs, -, -, -, rfl⟩ | ⟨b, rest, s, -, hs, rfl⟩ | ⟨-, rfl⟩ | ⟨k, -, rfl⟩ | ⟨-, rfl⟩ |
    ⟨-, rfl⟩ := perform_cases h
  · exact absurd hreset hop
  · exact hf
  · rw [m.core.hostStep_halted rest b hf] at hs
    cases hs
    exact hf
  all_goals exact hf

/-! ## Lists of operations -/

theorem performAll_cons_of_ok {op : HostOp} {m t : Session} {r : Report} (h : perform op m = .ok (t, r))
    (ops : List HostOp) : performAll (op :: ops) m = performAll ops t := by
  simp only [performAll, h]

theorem performAll_cons_of_error {op : HostOp} {m : Session} {q : Refusal} (h : perform op m = .error q)
    (ops : List HostOp) : performAll (op :: ops) m = .error q := by
  simp only [performAll, h]

/-- Settles O52: each operation of the list keeps the latch (`perform_keeps_latch`). -/
theorem onlyResetLeavesTheHaltedState : Obligations.OnlyResetLeavesTheHaltedState := by
  unfold Obligations.OnlyResetLeavesTheHaltedState
  intro ops m t f hf hops h
  induction ops generalizing m with
  | nil =>
    cases h
    exact hf
  | cons op ops ih =>
    obtain ⟨hop, hops⟩ := List.forall_mem_cons.mp hops
    cases hp : perform op m with
    | error q =>
      rw [performAll_cons_of_error hp] at h
      cases h
    | ok p =>
      rw [performAll_cons_of_ok hp] at h
      exact ih p.1 (perform_keeps_latch hf hop hp) hops h

/-- Settles O60: by induction on the list, the first operation goes through exactly when its duty is kept, and leaves
the host's phase as `dutiesKept` follows it. -/
theorem operationsSucceedWithinDuties : Obligations.OperationsSucceedWithinDuties := by
  unfold Obligations.OperationsSucceedWithinDuties
  intro ops m
  induction ops generalizing m with
  | nil => exact ⟨fun _ => rfl, fun _ => ⟨m, rfl⟩⟩
  | cons op ops ih =>
    cases op
    case loadRom bytes =>
      cases hm : m.fresh with
      | false =>
        simp [performAll_cons_of_error (perform_loadRom_too_late bytes hm), dutiesKept]
      | true =>
        by_cases hlen : bytes.length ≤ 3584
        · rw [performAll_cons_of_ok (perform_loadRom_in_time hm hlen), ih]
          simp [dutiesKept, hm, hlen]
        · rw [performAll_cons_of_error (perform_loadRom_too_long hm (Nat.lt_of_not_le hlen))]
          simp [dutiesKept, hlen]
    case step b rest =>
      obtain ⟨s, r, hs⟩ := m.core.hostStep_ok rest b
      rw [performAll_cons_of_ok (perform_step_of_hostStep hs)]
      exact ih ⟨s, false⟩
    case reset | tick | keyPress | keyReleaseAll | snapshot | readFault => exact ih _

end Sys2Proof.Machine
end
